-- ==== Sys2Proof/Word.lean ====
section
/-! DEFINITION. The two widths of the block (00_scope.md rule R5): a byte (`XLEN`, 8 bits) and a word (`ALEN`, 16 bits). -/

namespace Sys2Proof

/-- A byte: registers A, X, Y and one memory byte (R5 `XLEN`). -/
abbrev Byte := BitVec 8

/-- A word: PC, SP and a jump target (R5 `ALEN`, `SPLEN`). -/
abbrev Word := BitVec 16

end Sys2Proof
end

