-- ==== Sys2Proof/Config.lean ====
section
/-! DEFINITION. What an implementation fixes (00_scope.md rule R5): the sizes and reset addresses, and the two
parameters the source does not print, the opcode byte values and the layout of the status byte. Their default values
stand in Decode.lean (`opcodes`) and Machine/Flags.lean (`statusLayout`). -/

namespace Sys2Proof

/-- Number of bytes of the memory array (R5 `MEM_SIZE`, R30). -/
def memSize : Nat := 65536

@[simp] theorem memSize_eq : memSize = 65536 := rfl

/-- PC after reset: the number itself, no indirection (R5 `RESET_PC`, R121, C7). -/
def resetPc : Word := 0xFFFC

/-- First address of the stack page and SP after reset (R5 `RESET_SP`, `STACK_PAGE`, R15). -/
def resetSp : Word := 0x0100

/-- The opcode bytes of the four instructions: parameters of the block (R5, R55, D2). -/
structure OpcodeMap where
  ldaIm  : Byte
  ldaZp  : Byte
  ldaZpx : Byte
  jsrAbs : Byte
deriving DecidableEq, Repr

/-- The only constraint the rules place on the opcode parameters: they are pairwise different (R5, R56). -/
abbrev OpcodeMap.Distinct (k : OpcodeMap) : Prop := [k.ldaIm, k.ldaZp, k.ldaZpx, k.jsrAbs].Nodup

/-- The bit position of each flag in the packed status byte: the parameter `P_LAYOUT` (R5, R19, D3). -/
structure StatusLayout where
  c : Fin 8
  z : Fin 8
  i : Fin 8
  d : Fin 8
  b : Fin 8
  u : Fin 8
  v : Fin 8
  n : Fin 8
deriving DecidableEq, Repr

/-- A layout gives each flag a position of its own. -/
abbrev StatusLayout.Distinct (l : StatusLayout) : Prop := [l.c, l.z, l.i, l.d, l.b, l.u, l.v, l.n].Nodup

end Sys2Proof
end

