-- ==== Sys2Proof/Syntax.lean ====
section
/-! DEFINITION. The instructions, one constructor per row of spec/opcode_table.json, and the columns of the dispatch
table (30_encoding.md rules R50 to R57). -/

namespace Sys2Proof

/-- An instruction with its operands (R50). -/
inductive Instr where
  /-- `LDA_IM`: load A with the operand byte (R80). -/
  | ldaIm (d8 : Byte)
  /-- `LDA_ZP`: load A from the zero-page address `d8` (R81). -/
  | ldaZp (d8 : Byte)
  /-- `LDA_ZPX`: load A from the zero-page address `d8 + X` (R82). -/
  | ldaZpx (d8 : Byte)
  /-- `JSR_ABS`: jump to the subroutine at `target` (R90). -/
  | jsrAbs (target : Word)
  /-- `UNRECOGNIZED`: an opcode byte with no registered handler (R72). -/
  | unrecognized (op : Byte)
deriving DecidableEq, Repr

/-- The handler an opcode selects (R56, column "operation"). -/
inductive Handler where
  | ldaIm
  | ldaZp
  | ldaZpx
  | jsrAbs
deriving DecidableEq, Repr

/-- The addressing modes (R84, R56). -/
inductive Mode where
  | immediate
  | zeroPage
  | zeroPageX
  | absolute
deriving DecidableEq, Repr

/-- One entry of the dispatch table: key and handler descriptor (R56). -/
structure TableEntry where
  key     : Byte
  handler : Handler
  mode    : Mode
  /-- Total cost in cycles, the opcode fetch included. -/
  cycles  : Nat
  /-- Flag-update policy: `true` when Z and N are computed from the result, `false` for "none". -/
  setsZN  : Bool
deriving DecidableEq, Repr

end Sys2Proof
end

