-- ==== Sys2Proof/WellFormed.lean ====
section
/-! DEFINITION. Which terms of `Instr` are instructions of the block under given opcode parameters. -/

namespace Sys2Proof

/-- Every operand value of the four table instructions is allowed (R52 to R54); an `unrecognized` byte is one that is
none of the four keys (R57). -/
def Instr.wellFormedFor (k : OpcodeMap) : Instr → Bool
  | .ldaIm _ => true
  | .ldaZp _ => true
  | .ldaZpx _ => true
  | .jsrAbs _ => true
  | .unrecognized op => op != k.ldaIm && op != k.ldaZp && op != k.ldaZpx && op != k.jsrAbs

end Sys2Proof
end

