-- ==== Sys2Proof/Decode.lean ====
section
/-! DEFINITION. The dispatch table, the decoder and the encoder (30_encoding.md rules R50 to R57). Everything takes the
opcode parameters as an argument; `opcodes` holds the spec's default values. -/

namespace Sys2Proof

/-- The default opcode values (R55). UNVERIFIED: the spec marks them as general knowledge; log entry 1, unsafe. -/
def opcodes : OpcodeMap := { ldaIm := 0xA9, ldaZp := 0xA5, ldaZpx := 0xB5, jsrAbs := 0x20 }

/-- Well-formedness under the default opcode values. -/
abbrev Instr.wellFormed (i : Instr) : Bool := i.wellFormedFor opcodes

/-! ## Byte order (R36, R54) -/

/-- `{hi, lo} = hi * 256 + lo` (R6, R54). -/
def wordOf (lo hi : Byte) : Word := BitVec.ofNat 16 (hi.toNat * 256 + lo.toNat)

/-- `v[7:0]`. -/
def lowByte (v : Word) : Byte := v.setWidth 8

/-- `v[15:8]`. -/
def highByte (v : Word) : Byte := (v >>> 8).setWidth 8

/-! ## The dispatch table (R56) -/

/-- The four entries of R56's table. -/
def dispatchTable (k : OpcodeMap) : List TableEntry :=
  [ { key := k.ldaIm,  handler := .ldaIm,  mode := .immediate, cycles := 2, setsZN := true },
    { key := k.ldaZp,  handler := .ldaZp,  mode := .zeroPage,  cycles := 3, setsZN := true },
    { key := k.ldaZpx, handler := .ldaZpx, mode := .zeroPageX, cycles := 4, setsZN := true },
    { key := k.jsrAbs, handler := .jsrAbs, mode := .absolute,  cycles := 5, setsZN := false } ]

/-- R56 `decode(op)`: the entry whose key equals `op`, or `none`. Total on all 256 byte values. -/
def lookup (k : OpcodeMap) (op : Byte) : Option TableEntry :=
  (dispatchTable k).find? (fun e => e.key == op)

/-- Operand bytes after the opcode (R50, R84). -/
def Mode.operandBytes : Mode → Nat
  | .immediate => 1
  | .zeroPage => 1
  | .zeroPageX => 1
  | .absolute => 2

/-- Operand bytes an opcode byte asks for: none when it is unrecognized (R51). -/
def operandCount (k : OpcodeMap) (op : Byte) : Nat :=
  match lookup k op with
  | some e => e.mode.operandBytes
  | none => 0

/-! ## Decoding -/

/-- The instruction a handler makes of its operand bytes, first fetched first (R52, R53, R54). -/
def assemble (h : Handler) (b1 b2 : Byte) : Instr :=
  match h with
  | .ldaIm => .ldaIm b1
  | .ldaZp => .ldaZp b1
  | .ldaZpx => .ldaZpx b1
  | .jsrAbs => .jsrAbs (wordOf b1 b2)

/-- The instruction that starts with opcode `op` and is followed in memory by `b1` and `b2`; bytes past its length do
not matter (R50, R51). -/
def decodeFetched (k : OpcodeMap) (op b1 b2 : Byte) : Instr :=
  match lookup k op with
  | some e => assemble e.handler b1 b2
  | none => .unrecognized op

/-- Why a list of bytes holds no whole instruction. The machine itself never meets this, since every fetch finds a byte
(R13); log entry 12, safe. -/
inductive DecodeReject where
  /-- The list is empty. -/
  | noOpcode
  /-- The list ends before the operand bytes the opcode asks for. -/
  | missingOperand
deriving DecidableEq, Repr

/-- The instruction at the head of a list of bytes, with the rest of the list. -/
def decodeWith (k : OpcodeMap) : List Byte → Except DecodeReject (Instr × List Byte)
  | [] => .error .noOpcode
  | op :: rest =>
    if rest.length < operandCount k op then .error .missingOperand
    else .ok (decodeFetched k op (rest.getD 0 0) (rest.getD 1 0), rest.drop (operandCount k op))

/-- Decoding under the default opcode values. -/
def decode (bytes : List Byte) : Except DecodeReject (Instr × List Byte) := decodeWith opcodes bytes

/-! ## Encoding -/

/-- Byte 0 of an instruction (R50, R55). -/
def Instr.opcode (k : OpcodeMap) : Instr → Byte
  | .ldaIm _ => k.ldaIm
  | .ldaZp _ => k.ldaZp
  | .ldaZpx _ => k.ldaZpx
  | .jsrAbs _ => k.jsrAbs
  | .unrecognized op => op

/-- The operand bytes, lowest address first (R50: formats `OP1`, `OP2`, `OP3`). -/
def Instr.operands : Instr → List Byte
  | .ldaIm d8 => [d8]
  | .ldaZp d8 => [d8]
  | .ldaZpx d8 => [d8]
  | .jsrAbs target => [lowByte target, highByte target]
  | .unrecognized _ => []

/-- Length in bytes (R51). -/
def Instr.length : Instr → Nat
  | .ldaIm _ => 2
  | .ldaZp _ => 2
  | .ldaZpx _ => 2
  | .jsrAbs _ => 3
  | .unrecognized _ => 1

/-- The bytes of an instruction, lowest address first. -/
def encodeWith (k : OpcodeMap) (i : Instr) : List Byte := i.opcode k :: i.operands

/-- Encoding under the default opcode values. -/
def encode (i : Instr) : List Byte := encodeWith opcodes i

/-! ## The opcode table's numbering of bits -/

/-- The longest instruction as the table numbers its bits: byte 0 is bits 7..0, byte 1 bits 15..8, byte 2 bits 23..16;
every bit from `nbits` on is 0. -/
def tableBytes (nbits w : Nat) : List Byte :=
  [BitVec.ofNat 8 (w % 2 ^ nbits), BitVec.ofNat 8 (w % 2 ^ nbits / 256), BitVec.ofNat 8 (w % 2 ^ nbits / 65536)]

/-- The instruction the decoder reads from a word numbered as spec/opcode_table.json numbers it. -/
def decodeTableWord (nbits w : Nat) : Option Instr :=
  match decode (tableBytes nbits w) with
  | .ok (i, _) => some i
  | .error _ => none

end Sys2Proof
end

