-- ==== Sys2Proof/Machine/State.lean ====
section
/-! DEFINITION. The state of the machine as plain data (10_state.md), the reasons a step can stop, and the state after
reset. -/

namespace Sys2Proof.Machine

/-- The status bits as individually named booleans (R17, R19, R20). -/
structure Flags where
  /-- Carry. -/
  c : Bool
  /-- Zero. -/
  z : Bool
  /-- Interrupt-Disable. -/
  i : Bool
  /-- Decimal-Mode. -/
  d : Bool
  /-- Break. -/
  b : Bool
  /-- The reserved position (R20). -/
  u : Bool
  /-- Overflow. -/
  v : Bool
  /-- Negative. -/
  n : Bool
deriving DecidableEq, Repr

/-- The run state (R22, C8). -/
inductive RunState where
  /-- Before the first reset: every other field holds any value at all (U1, U5; log entry 7). -/
  | idle
  | running
  /-- After the fatal condition (R101). -/
  | faulted
deriving DecidableEq, Repr

/-- A diagnostic record: the opcode byte and the PC it was fetched from (R104). -/
structure DiagRecord where
  op : Byte
  pcAt : Word
deriving DecidableEq, Repr

/-- The memory array: cells in rising address order, none holding 0x00; an unlisted address reads 0x00 (R23, R35). -/
abbrev Memory := List Host.Cell

/-- Every piece of state the spec gives the machine (10_state.md section 1, 60_exceptions.md R101). -/
structure State where
  /-- Accumulator (R10). -/
  a : Byte
  /-- Index-X (R10). -/
  x : Byte
  /-- Index-Y (R10). -/
  y : Byte
  /-- Program Counter (R12). -/
  pc : Word
  /-- Stack Pointer: the address of the next free stack slot (R15). -/
  sp : Word
  /-- Status flags (R17, R20). -/
  p : Flags
  /-- The memory array (R23). -/
  mem : Memory
  /-- Run state (R22). -/
  run : RunState
  /-- Remaining-cycle counter, a mathematical integer (R21). -/
  cyc : Int
  /-- The diagnostic stream, oldest record first (R24). -/
  diag : List DiagRecord
  /-- The address reported with the fatal condition the machine is stopped by, `none` when there is none (R101). -/
  faultAddr : Option Nat
deriving DecidableEq, Repr

/-- Why the machine stops. -/
inductive Fault where
  /-- `E_OOR`, the fatal out-of-range memory access (R100, R101): raised by the memory interface through
  `raiseOutOfRange`, from the core only by JSR_ABS with SP = 0xFFFF. It carries the address and the state left, in which
  `run` is `faulted`. Safe: the spec itself ends the step and the call here (log entry 6). -/
  | outOfRange (addr : Nat) (left : State)
deriving DecidableEq, Repr

/-- Why a step has no meaning. -/
inductive Refusal where
  /-- Raised by an arm of `exec` whose instruction has no meaning yet; no arm is left so. Safe. -/
  | notModelled (mnemonic : String)
  /-- Raised by `step` before the first reset: `execute` is refused in Idle (R65, U1). Safe. -/
  | executeInIdle
  /-- Raised by `step` after the fatal condition: `execute` is refused in Faulted until reset (R65, R101). Safe. -/
  | executeInFaulted
deriving DecidableEq, Repr

/-- All eight status bits 0 (R26, R20). -/
def Flags.clear : Flags :=
  { c := false, z := false, i := false, d := false, b := false, u := false, v := false, n := false }

/-- The state after reset (R26, R120). The spec gives no value for `cyc` (DESIGN CHOICE 0, log entry 3, unsafe), for
`faultAddr` (DESIGN CHOICE none, log entry 4, unsafe) and for the stream `diag` before anything has been reported (DESIGN
CHOICE empty, log entry 5, unsafe). -/
def State.reset : State :=
  { a := 0x00, x := 0x00, y := 0x00, pc := resetPc, sp := resetSp, p := Flags.clear, mem := [], run := .running,
    cyc := 0, diag := [], faultAddr := none }

end Sys2Proof.Machine
end

