-- ==== Sys2Proof/Machine/Flags.lean ====
section
/-! DEFINITION. The flag computation of the loads (41_load_accumulator.md R83) and the packed status byte
(10_state.md R19). -/

namespace Sys2Proof.Machine

/-- `SetZN(v)`: Z when `v` is 0, N its bit 7; no other bit (R83). -/
def Flags.setZN (v : Byte) (p : Flags) : Flags := { p with z := v == 0, n := v.getLsbD 7 }

/-- The default layout of the status byte (R19). UNVERIFIED: the spec marks it as general knowledge; log entry 2, unsafe. -/
def statusLayout : StatusLayout := { c := 0, z := 1, i := 2, d := 3, b := 4, u := 5, v := 6, n := 7 }

/-- A byte with `bit` at position `at_` and 0 elsewhere. -/
def bitAt (bit : Bool) (at_ : Fin 8) : Byte := (BitVec.ofBool bit).setWidth 8 <<< at_.val

/-- `pack(P)` under a layout (R19). -/
def Flags.packWith (l : StatusLayout) (p : Flags) : Byte :=
  bitAt p.c l.c ||| bitAt p.z l.z ||| bitAt p.i l.i ||| bitAt p.d l.d |||
    bitAt p.b l.b ||| bitAt p.u l.u ||| bitAt p.v l.v ||| bitAt p.n l.n

/-- `unpack` under a layout (R19). -/
def Flags.unpackWith (l : StatusLayout) (w : Byte) : Flags :=
  { c := w.getLsbD l.c, z := w.getLsbD l.z, i := w.getLsbD l.i, d := w.getLsbD l.d,
    b := w.getLsbD l.b, u := w.getLsbD l.u, v := w.getLsbD l.v, n := w.getLsbD l.n }

/-- `pack(P)` under the default layout. -/
def Flags.pack (p : Flags) : Byte := p.packWith statusLayout

/-- `unpack` under the default layout. -/
def Flags.unpack (w : Byte) : Flags := Flags.unpackWith statusLayout w

/-- The packed status byte of a state, as the host dumps it (R19). -/
def State.statusByte (s : State) : Byte := s.p.pack

end Sys2Proof.Machine
end

