-- ==== Sys2Proof/Machine/Operands.lean ====
section
/-! DEFINITION. The addressing modes: how an operand gives its datum or effective address (30_encoding.md R52 to R54,
41_load_accumulator.md R84). Absolute is assembled by the decoder (`wordOf`) and used as it is. -/

namespace Sys2Proof.Machine

/-- Immediate: the operand byte is the datum (R52). -/
def immediate (d8 : Byte) : Byte := d8

/-- Zero-Page: `zext_16(d8)` (R53). -/
def zeroPage (d8 : Byte) : Word := d8.setWidth 16

/-- Zero-Page,X: `zext_16((d8 + X) mod 256)`; the carry out of bit 7 is dropped (R82, R94 e; the spec's decision D7). -/
def zeroPageX (d8 x : Byte) : Word := (d8 + x).setWidth 16

end Sys2Proof.Machine
end

