-- ==== Sys2Proof/Machine/Ops.lean ====
section
/-! DEFINITION. The named operations over memory and registers: the memory array, the memory interface
(20_memory.md R32 to R35), the byte fetch and the cycle charges (40_execute_loop.md R67, R68), the stack template
(42_jump_subroutine.md R91), the two conditions and reset (60_exceptions.md R101, R104, 70_reset_and_hazards.md R120). -/

namespace Sys2Proof.Machine

/-! ## The memory array -/

/-- What an unlisted address holds: the 0x00 of `initialize` (R35). -/
def Memory.unlisted : Byte := 0x00

/-- The byte at `addr`. -/
def Memory.read : Memory → Nat → Byte
  | [], _ => Memory.unlisted
  | c :: rest, addr => if c.1 = addr then c.2 else Memory.read rest addr

/-- Put a cell before the first cell of a higher address. -/
def Memory.insertCell (c : Host.Cell) : Memory → Memory
  | [] => [c]
  | d :: rest => if c.1 < d.1 then c :: d :: rest else d :: Memory.insertCell c rest

/-- The memory in which `addr` holds `v`. -/
def Memory.write (m : Memory) (addr : Nat) (v : Byte) : Memory :=
  let others := m.filter (fun c => c.1 != addr)
  if v = Memory.unlisted then others else Memory.insertCell (addr, v) others

/-- The canonical form: addresses inside the array and strictly rising, no cell holding what an unlisted address reads
as. -/
abbrev Memory.wf (m : Memory) : Prop :=
  m.Pairwise (fun c d => c.1 < d.1) ∧ ∀ c ∈ m, c.1 < memSize ∧ c.2 ≠ Memory.unlisted

/-! ## Cycles and the byte fetch (R67, R68) -/

/-- One byte fetched through PC (R5 `COST_FETCH`). -/
def costFetch : Nat := 1

/-- One data byte read (R5 `COST_READ`). -/
def costRead : Nat := 1

/-- The add of X to a zero-page base (R5 `COST_INDEX`). -/
def costIndex : Nat := 1

/-- The word write (R5 `COST_WRITEWORD`). -/
def costWriteWord : Nat := 2

/-- `cyc <- cyc - k`, on the integers (R21, R94 g). -/
def State.charge (k : Nat) (s : State) : State := { s with cyc := s.cyc - k }

/-- What `n` byte fetches leave: PC moved by `n` modulo 65536 and `n` fetches charged (R67, R13; the wrap is the spec's
decision D5). -/
def State.fetched (n : Nat) (s : State) : State :=
  State.charge (n * costFetch) { s with pc := s.pc + BitVec.ofNat 16 n }

/-- `FetchByte()` (R67). `MemRead(pc, 1)` cannot be out of range, PC being 16 bits (R13). -/
def fetchByte (s : State) : Byte × State := (s.mem.read s.pc.toNat, s.fetched 1)

/-- The instruction that starts at PC: the opcode byte and the two bytes after it, addresses modulo 65536, of which the
decoder takes as many as the opcode asks for (R50, R51). Reading is free of side effects (R32). DEDUCED, log entry 8, safe. -/
def fetchInstr (k : OpcodeMap) (s : State) : Instr :=
  decodeFetched k (s.mem.read s.pc.toNat) (s.mem.read (s.pc + 1).toNat) (s.mem.read (s.pc + 2).toNat)

/-! ## The memory interface (R32 to R35): `Except.error addr` is the condition `OutOfRange(addr)` -/

/-- `MemRead(addr, 1)` (R32). -/
def memRead (addr : Nat) (s : State) : Except Nat Byte :=
  if memSize ≤ addr then .error addr else .ok (s.mem.read addr)

/-- `MemRead(addr, 2)`, little-endian, a shorthand no instruction uses (R36). The lower address is checked first
(DEDUCED from R34; log entry 10, unsafe). -/
def memReadWord (addr : Nat) (s : State) : Except Nat Word :=
  if memSize ≤ addr then .error addr
  else if memSize ≤ addr + 1 then .error (addr + 1)
  else .ok (wordOf (s.mem.read addr) (s.mem.read (addr + 1)))

/-- `MemWrite(addr, 1, v)` (R33). -/
def memWrite (addr : Nat) (v : Byte) (s : State) : Except Nat State :=
  if memSize ≤ addr then .error addr else .ok { s with mem := s.mem.write addr v }

/-- `MemWrite(addr, 2, v)`, the word-write helper: both bounds before either byte, low byte at the lower address, 2
cycles charged here (R34; the order of check and write is the spec's decision D10). -/
def memWriteWord (addr : Nat) (v : Word) (s : State) : Except Nat State :=
  if memSize ≤ addr then .error addr
  else if memSize ≤ addr + 1 then .error (addr + 1)
  else .ok (State.charge costWriteWord
    { s with mem := (s.mem.write addr (lowByte v)).write (addr + 1) (highByte v) })

/-- `initialize()`: every byte 0x00 (R35). -/
def State.initialize (s : State) : State := { s with mem := [] }

/-! ## Registers and stack -/

/-- `x[A] <- v` followed by `SetZN(v)`: the end of every load (R80 to R83). -/
def State.loadA (v : Byte) (s : State) : State := { s with a := v, p := s.p.setZN v }

/-- The address a stack access uses: SP itself, with nothing added (R15; the spec's decision D4). -/
def State.stackAddr (s : State) : Nat := s.sp.toNat

/-- A push of a word: written at SP, then SP moves up by its width modulo 65536 (R91, R16; the spec's decision D6). -/
def pushWord (v : Word) (s : State) : Except Nat State :=
  match memWriteWord s.stackAddr v s with
  | .error addr => .error addr
  | .ok s' => .ok { s' with sp := s'.sp + 2 }

/-- `pc <- t` (R13 b). -/
def State.jump (t : Word) (s : State) : State := { s with pc := t }

/-! ## The conditions and the way back (R101, R104, R120) -/

/-- `emit Diag(op, at)`: the report of `E_UNREC` (R103, R104). -/
def State.emitDiag (op : Byte) (pcAt : Word) (s : State) : State :=
  { s with diag := s.diag ++ [{ op := op, pcAt := pcAt }] }

/-- `raise OutOfRange(addr)`, the one condition that stops the machine: what the step has done stays done, the run state
becomes Faulted, the address is reported. There is no vector, no saved state and no handler (R101, R107). -/
def raiseOutOfRange (addr : Nat) (s : State) : Host.Outcome State Fault Refusal :=
  .fault (.outOfRange addr { s with run := .faulted, faultAddr := some addr })

/-- `reset()`, the only way out of Faulted (R109, R120, R122): the assignments of R120 in their order. `diag` and `cyc` are
not touched (R24, R120); clearing the reported address is the model's choice (DESIGN CHOICE, log entry 4, unsafe). -/
def State.hostReset (s : State) : State :=
  State.initialize
    { s with pc := resetPc, sp := resetSp, p := Flags.clear, a := 0x00, x := 0x00, y := 0x00,
             run := .running, faultAddr := none }

end Sys2Proof.Machine
end

