-- ==== Sys2Proof/Machine/Jump.lean ====
section
/-! DEFINITION. Jump-to-Subroutine (42_jump_subroutine.md). The meaning starts from the state at the opcode byte and
gives the effect of the whole step. -/

namespace Sys2Proof.Machine

/-- The return address: PC after the operand fetch, less one, modulo 65536; not the target less one (R92, C1). -/
def returnAddress (s : State) : Word := s.pc - 1

/-- `JSR_ABS` (R90): three bytes fetched, the return address pushed, the jump. A push out of range leaves the three
fetches done and nothing else. -/
def execJsrAbs (target : Word) (s : State) : Host.Outcome State Fault Refusal :=
  let s3 := s.fetched 3
  match pushWord (returnAddress s3) s3 with
  | .error e => raiseOutOfRange e s3
  | .ok s' => .next (s'.jump target)

end Sys2Proof.Machine
end

