-- ==== Sys2Proof/Machine/Load.lean ====
section
/-! DEFINITION. The Load-Accumulator family (41_load_accumulator.md). A meaning starts from the state at the opcode byte
(`s.pc` is `pc0`) and gives the effect of the whole step; the operand is the one decoded from the bytes at PC. -/

namespace Sys2Proof.Machine

/-- The data read of a load and what follows it: read, charge the read, write A, set the flags (R81, R82). -/
def loadFrom (addr : Nat) (s : State) : Host.Outcome State Fault Refusal :=
  match memRead addr s with
  | .error e => raiseOutOfRange e s
  | .ok v => .next ((s.charge costRead).loadA v)

/-- `LDA_IM` (R80). -/
def execLdaIm (d8 : Byte) (s : State) : Host.Outcome State Fault Refusal :=
  .next ((s.fetched 2).loadA (immediate d8))

/-- `LDA_ZP` (R81). -/
def execLdaZp (d8 : Byte) (s : State) : Host.Outcome State Fault Refusal :=
  loadFrom (zeroPage d8).toNat (s.fetched 2)

/-- `LDA_ZPX` (R82). -/
def execLdaZpx (d8 : Byte) (s : State) : Host.Outcome State Fault Refusal :=
  loadFrom (zeroPageX d8 s.x).toNat ((s.fetched 2).charge costIndex)

end Sys2Proof.Machine
end

