-- ==== Sys2Proof/Machine/Unrecognized.lean ====
section
/-! DEFINITION. The opcode with no registered handler (40_execute_loop.md R72): reported and skipped. -/

namespace Sys2Proof.Machine

/-- `UNRECOGNIZED` (R72): one byte, one cycle, one record with the PC before the fetch. -/
def execUnrecognized (op : Byte) (s : State) : Host.Outcome State Fault Refusal :=
  .next ((s.fetched 1).emitDiag op s.pc)

end Sys2Proof.Machine
end

