-- ==== Sys2Proof/Machine/Step.lean ====
section
/-! DEFINITION. One step: one whole instruction (40_execute_loop.md R69). -/

namespace Sys2Proof.Machine

/-- `Step()` under given opcode parameters: fetch and decode the instruction at PC, then its meaning (R69). The budget is
tested by the loop of `execute`, never here (R66). In Idle and Faulted the call is refused (R65). -/
def stepWith (k : OpcodeMap) (s : State) : Host.Outcome State Fault Refusal :=
  match s.run with
  | .idle => .refused .executeInIdle
  | .faulted => .refused .executeInFaulted
  | .running => exec (fetchInstr k s) s

/-- One step under the default opcode values. -/
def step (s : State) : Host.Outcome State Fault Refusal := stepWith opcodes s

/-- `s` with an instruction, numbered as spec/opcode_table.json numbers it, stored at PC (its bytes at PC, PC + 1 and
PC + 2 modulo 65536) and the machine Running, so that the next step runs it. It stands for the host's loading of a program
(R43, R123). DESIGN CHOICE, log entry 11, safe. -/
def State.withFetchWord (s : State) (nbits w : Nat) : State :=
  let bytes := tableBytes nbits w
  { s with
    run := .running
    mem := ((s.mem.write s.pc.toNat (bytes.getD 0 0)).write (s.pc + 1).toNat (bytes.getD 1 0)).write
      (s.pc + 2).toNat (bytes.getD 2 0) }

end Sys2Proof.Machine
end

