-- ==== Sys2Proof/Machine/Pseudocode.lean ====
section
/-! DEFINITION. `Step()` as 40_execute_loop.md R69 prints it, with the handlers of R72, R80, R81, R82 and R90 as they
are printed: each handler fetches its own operand bytes through `FetchByte()` while it runs. The machine itself decodes the
whole instruction first and then runs one meaning (Step.lean); an obligation says that the two agree. -/

namespace Sys2Proof.Machine

/-- A handler, after the common opcode fetch (R80, R81, R82, R90). -/
def pseudoHandler (h : Handler) (s : State) : Host.Outcome State Fault Refusal :=
  match h with
  | .ldaIm =>
    let (v, s) := fetchByte s
    .next { s with a := v, p := s.p.setZN v }
  | .ldaZp =>
    let (zp, s) := fetchByte s
    match memRead (zeroPage zp).toNat s with
    | .error addr => raiseOutOfRange addr s
    | .ok v =>
      let s := { s with cyc := s.cyc - 1 }
      .next { s with a := v, p := s.p.setZN v }
  | .ldaZpx =>
    let (zp, s) := fetchByte s
    let ea8 := zp + s.x
    let s := { s with cyc := s.cyc - 1 }
    match memRead (zeroPage ea8).toNat s with
    | .error addr => raiseOutOfRange addr s
    | .ok v =>
      let s := { s with cyc := s.cyc - 1 }
      .next { s with a := v, p := s.p.setZN v }
  | .jsrAbs =>
    let (lo, s) := fetchByte s
    let (hi, s) := fetchByte s
    let ret := s.pc - 1
    match memWriteWord s.sp.toNat ret s with
    | .error addr => raiseOutOfRange addr s
    | .ok s =>
      let s := { s with sp := s.sp + 2 }
      .next { s with pc := wordOf lo hi }

/-- `Step()` (R69), with the unrecognized case of R72. -/
def pseudoStep (k : OpcodeMap) (s : State) : Host.Outcome State Fault Refusal :=
  let pc0 := s.pc
  let (op, s) := fetchByte s
  match lookup k op with
  | some e => pseudoHandler e.handler s
  | none => .next (s.emitDiag op pc0)

end Sys2Proof.Machine
end

