-- ==== Sys2Proof/Machine/Driver.lean ====
section
/-! DEFINITION. The host interface (70_reset_and_hazards.md R126): `execute(budget)` with its loop
(40_execute_loop.md R65, R66), and the host's access to memory between calls (20_memory.md R43). The reset operation is
`State.hostReset` (Ops.lean). -/

namespace Sys2Proof.Machine

/-- What a call of `execute` hands back (R65, R74, R101). -/
inductive CallResult where
  /-- The normal end, with the state and the cycles charged. -/
  | returned (s : State) (consumed : Int)
  /-- The fatal condition with its address, the state left and the cycles charged until then. -/
  | fatal (addr : Nat) (left : State) (charged : Int)
  /-- The call has no meaning in the present run state. -/
  | refused (r : Refusal)
deriving DecidableEq, Repr

/-- The loop of R66, `while cyc > 0 and run == Running: Step()`, for at most `fuel` turns. A turn charges at least one cycle
(R76), so a fuel of `cyc` turns never cuts the loop short (R74). DEDUCED, log entry 9, safe. -/
def runLoop (k : OpcodeMap) : Nat → State → Host.Outcome State Fault Refusal
  | 0, s => .next s
  | fuel + 1, s =>
    if 0 < s.cyc ∧ s.run = .running then
      match stepWith k s with
      | .next s' => runLoop k fuel s'
      | .fault f => .fault f
      | .refused r => .refused r
    else .next s

/-- `execute(budget)` (R65, R66). `cyc` exists only inside the call (R21): the call loads it and the cell is as before
once the call has ended (DESIGN CHOICE, log entry 3, unsafe). -/
def executeWith (k : OpcodeMap) (budget : Nat) (s : State) : CallResult :=
  match s.run with
  | .idle => .refused .executeInIdle
  | .faulted => .refused .executeInFaulted
  | .running =>
    match runLoop k budget { s with cyc := budget } with
    | .next s' => .returned { s' with cyc := s.cyc } (budget - s'.cyc)
    | .fault (.outOfRange addr left) => .fatal addr { left with cyc := s.cyc } (budget - left.cyc)
    | .refused r => .refused r

/-- `execute(budget)` under the default opcode values. -/
def execute (budget : Nat) (s : State) : CallResult := executeWith opcodes budget s

/-- The host reads a byte between calls; the error is the host's own (R43, R32). -/
def hostRead (addr : Nat) (s : State) : Except Nat Byte := memRead addr s

/-- The host writes a byte between calls; the error is the host's own and `run` stays as it is (R43, R33). -/
def hostWrite (addr : Nat) (v : Byte) (s : State) : Except Nat State := memWrite addr v s

/-- The host writes bytes at ascending addresses, as it loads a program (R43, R123). -/
def hostLoad (addr : Nat) : List Byte → State → Except Nat State
  | [], s => .ok s
  | v :: rest, s =>
    match hostWrite addr v s with
    | .error e => .error e
    | .ok s' => hostLoad (addr + 1) rest s'

end Sys2Proof.Machine
end

