-- ==== Sys2Proof/Safety.lean ====
section
/-! DEFINITION. What claims about runs are stated in: the conditions that hold in every state reached from reset, the
states a host can bring the machine to, and a safe step. -/

namespace Sys2Proof.Machine

/-- The flag equations of R18: true after a load, not right after reset. -/
def FlagsAgree (s : State) : Prop := s.p.z = (s.a == 0) ∧ s.p.n = s.a.getLsbD 7

/-- What no instruction writes and reset clears: X, Y and the flags C, I, D, B, V (R11, R17) and the reserved bit U (R20). -/
def Inert (s : State) : Prop :=
  s.x = 0 ∧ s.y = 0 ∧ s.p.c = false ∧ s.p.i = false ∧ s.p.d = false ∧ s.p.b = false ∧ s.p.v = false ∧ s.p.u = false

/-- SP is even (R102). -/
def SpEven (s : State) : Prop := s.sp.toNat % 2 = 0

/-- SP names a slot of two bytes inside the stack page (R5 `STACK_PAGE`, U6). -/
def SpInStackPage (s : State) : Prop := 0x0100 ≤ s.sp.toNat ∧ s.sp.toNat ≤ 0x01FE

/-- The address of the fatal condition is held exactly in Faulted (R101, log entry 4). -/
def FaultAddrAgrees (s : State) : Prop := s.faultAddr.isSome = true ↔ s.run = .faulted

/-- What holds in every state a host can reach from reset. -/
def ReachInv (s : State) : Prop :=
  s.run = .running ∧ s.faultAddr = none ∧ s.mem.wf ∧ Inert s ∧ SpEven s

/-- A step is safe when it does not raise the fatal condition (R101). -/
def SafeStep (k : OpcodeMap) (s : State) : Prop := ∀ f, stepWith k s ≠ .fault f

/-- The states between calls that a host can bring the machine to (R126): by reset from any state at all, by writing bytes,
by calls of `execute` with any budgets. -/
inductive HostReachable (k : OpcodeMap) : State → Prop where
  | reset (s : State) : HostReachable k s.hostReset
  | write (s s' : State) (addr : Nat) (v : Byte) :
      HostReachable k s → hostWrite addr v s = .ok s' → HostReachable k s'
  | call (s s' : State) (budget : Nat) (consumed : Int) :
      HostReachable k s → executeWith k budget s = .returned s' consumed → HostReachable k s'
  | fatalCall (s s' : State) (budget addr : Nat) (charged : Int) :
      HostReachable k s → executeWith k budget s = .fatal addr s' charged → HostReachable k s'

/-- `n` steps of the machine, each answering a next state. -/
inductive Steps (k : OpcodeMap) : Nat → State → State → Prop where
  | none (s : State) : Steps k 0 s s
  | more (n : Nat) (s s' t : State) : stepWith k s = .next s' → Steps k n s' t → Steps k (n + 1) s t

end Sys2Proof.Machine
end

