-- ==== Sys2Proof/Certificates/Slice0/Obligations.lean ====
section
/-! DEFINITION. The statements about the machine, for the provers. Each docstring names the rule of spec/ it formalises and,
where it rests on a decision the spec marks as its own (D<n> of 92_eei_decisions.md) or on a choice of the model (a log
entry), says so. Opcode bytes are parameters (`OpcodeMap`); where a statement has none, the default values are meant. -/

open Sys2Proof Sys2Proof.Machine

/-! ## Reset -/

/-- R120: what the reset operation assigns, from any state whatever (R122). It charges nothing and reports nothing. The zero
of U is the spec's decision D3. That the counter has a cell between calls, which reset leaves as it is, is the model's choice
(log entry 3): R21 and R26 give `cyc` no value there. -/
def Obligations.ResetOperationAssigns : Prop :=
  ∀ s : State,
    s.hostReset.pc = 0xFFFC ∧ s.hostReset.sp = 0x0100 ∧
    s.hostReset.p.c = false ∧ s.hostReset.p.z = false ∧ s.hostReset.p.i = false ∧ s.hostReset.p.d = false ∧
    s.hostReset.p.b = false ∧ s.hostReset.p.v = false ∧ s.hostReset.p.n = false ∧ s.hostReset.p.u = false ∧
    s.hostReset.a = 0x00 ∧ s.hostReset.x = 0x00 ∧ s.hostReset.y = 0x00 ∧
    (∀ addr, s.hostReset.mem.read addr = 0x00) ∧ s.hostReset.run = .running ∧
    s.hostReset.cyc = s.cyc ∧ s.hostReset.diag = s.diag

/-- R26: the values the source gives for the state after reset. -/
def Obligations.ResetStateValues : Prop :=
  State.reset.pc = 0xFFFC ∧ State.reset.sp = 0x0100 ∧
  State.reset.a = 0x00 ∧ State.reset.x = 0x00 ∧ State.reset.y = 0x00 ∧
  State.reset.p.c = false ∧ State.reset.p.z = false ∧ State.reset.p.i = false ∧ State.reset.p.d = false ∧
  State.reset.p.b = false ∧ State.reset.p.v = false ∧ State.reset.p.n = false ∧
  (∀ addr, State.reset.mem.read addr = 0x00) ∧ State.reset.run = .running

/-! ## What each instruction does, and that it completes -/

/-- R80: LDA_IM completes from every state; the whole next state. PC wraps by the spec's decision D5. -/
def Obligations.LdaImLoadsOperand : Prop :=
  ∀ (d8 : Byte) (s : State),
    exec (.ldaIm d8) s = .next { s with
      a := d8
      p := { s.p with z := d8 == 0, n := d8.getLsbD 7 }
      pc := s.pc + 2
      cyc := s.cyc - 2 }

/-- R81: LDA_ZP completes from every state; the whole next state. PC wraps by the spec's decision D5. -/
def Obligations.LdaZpLoadsZeroPageByte : Prop :=
  ∀ (d8 : Byte) (s : State),
    exec (.ldaZp d8) s = .next { s with
      a := s.mem.read d8.toNat
      p := { s.p with z := s.mem.read d8.toNat == 0, n := (s.mem.read d8.toNat).getLsbD 7 }
      pc := s.pc + 2
      cyc := s.cyc - 3 }

/-- R82: LDA_ZPX completes from every state, for every value of X; the whole next state. The sum wraps inside the zero page
by the spec's decision D7, PC by D5. -/
def Obligations.LdaZpxLoadsIndexedByte : Prop :=
  ∀ (d8 : Byte) (s : State),
    exec (.ldaZpx d8) s = .next { s with
      a := s.mem.read ((d8.toNat + s.x.toNat) % 256)
      p := { s.p with
        z := s.mem.read ((d8.toNat + s.x.toNat) % 256) == 0
        n := (s.mem.read ((d8.toNat + s.x.toNat) % 256)).getLsbD 7 }
      pc := s.pc + 2
      cyc := s.cyc - 4 }

/-- R90, R92: JSR_ABS completes whenever SP is not 0xFFFF. It pushes the address of its own last byte, low byte at SP, moves
SP up by 2 and jumps; every other byte of memory and every other register is as before. The push at SP itself is the
spec's decision D4, its upward direction and the wrap of SP are D6, the wrap of PC is D5, the 5 cycles are D8. That the fault
address is a cell of the state is the model's choice (log entry 4). -/
def Obligations.JsrAbsPushesAndJumps : Prop :=
  ∀ (target : Word) (s : State), s.sp ≠ 0xFFFF →
    ∃ t, exec (.jsrAbs target) s = .next t ∧
      t.pc = target ∧ t.sp = s.sp + 2 ∧ t.cyc = s.cyc - 5 ∧
      t.mem.read s.sp.toNat = lowByte (s.pc + 2) ∧
      t.mem.read (s.sp.toNat + 1) = highByte (s.pc + 2) ∧
      (∀ addr, addr ≠ s.sp.toNat → addr ≠ s.sp.toNat + 1 → t.mem.read addr = s.mem.read addr) ∧
      t.a = s.a ∧ t.x = s.x ∧ t.y = s.y ∧ t.p = s.p ∧ t.run = s.run ∧ t.diag = s.diag ∧ t.faultAddr = s.faultAddr

/-- R90, R101, R102: JSR_ABS with SP = 0xFFFF raises `OutOfRange(65536)`: three bytes fetched, nothing pushed, SP and memory
as before, Faulted. That the bounds come before the bytes is the spec's decision D10, the Faulted state D11; that the stop is an
outcome carrying the state left, with the address also held in it, is the model's choice (log entries 4 and 6). -/
def Obligations.JsrAbsAtTopOfMemoryFaults : Prop :=
  ∀ (target : Word) (s : State), s.sp = 0xFFFF →
    exec (.jsrAbs target) s = .fault (.outOfRange 65536 { s with
      pc := s.pc + 3
      cyc := s.cyc - 3
      run := .faulted
      faultAddr := some 65536 })

/-- R72, R103: UNRECOGNIZED completes from every state: one byte, one cycle, one record with the PC before the fetch. The
record's content is the spec's decision D12, PC wraps by D5. -/
def Obligations.UnrecognizedReportsAndSkips : Prop :=
  ∀ (op : Byte) (s : State),
    exec (.unrecognized op) s = .next { s with
      pc := s.pc + 1
      cyc := s.cyc - 1
      diag := s.diag ++ [{ op := op, pcAt := s.pc }] }

/-- R82, corner case: with X = 0 LDA_ZPX is LDA_ZP with one more cycle. -/
def Obligations.LdaZpxWithZeroIndexIsLdaZp : Prop :=
  ∀ (d8 : Byte) (s : State), s.x = 0 →
    ∃ t, exec (.ldaZp d8) s = .next t ∧ exec (.ldaZpx d8) s = .next { t with cyc := t.cyc - 1 }

/-! ## Frames -/

/-- R80 to R83: what the three loads and an unrecognized opcode leave unchanged: X, Y, SP, the run state and every byte of
memory; a load leaves every flag but Z and N, the reserved bit and the diagnostic stream; an unrecognized opcode leaves A and
all flags. That the fault address is a cell of the state is the model's choice (log entry 4). -/
def Obligations.RegisterFormsFrame : Prop :=
  ∀ (i : Instr) (s t : State), exec i s = .next t → (∀ target, i ≠ .jsrAbs target) →
    t.x = s.x ∧ t.y = s.y ∧ t.sp = s.sp ∧ t.run = s.run ∧ t.faultAddr = s.faultAddr ∧
    (∀ addr, t.mem.read addr = s.mem.read addr) ∧
    t.p.c = s.p.c ∧ t.p.i = s.p.i ∧ t.p.d = s.p.d ∧ t.p.b = s.p.b ∧ t.p.u = s.p.u ∧ t.p.v = s.p.v ∧
    ((∀ op, i ≠ .unrecognized op) → t.diag = s.diag) ∧
    (∀ op, i = .unrecognized op → t.a = s.a ∧ t.p = s.p)

/-- R90: what JSR_ABS leaves unchanged; the stored bytes are the two that start at the address the meaning pushes to, which
is SP itself and the byte above it by the spec's decisions D4 and D6. The fault address as a cell of the state is the model's
choice (log entry 4). -/
def Obligations.JsrAbsFrame : Prop :=
  ∀ (target : Word) (s t : State), exec (.jsrAbs target) s = .next t →
    t.a = s.a ∧ t.x = s.x ∧ t.y = s.y ∧ t.p = s.p ∧ t.run = s.run ∧ t.diag = s.diag ∧ t.faultAddr = s.faultAddr ∧
    (∀ stored, (s.fetched 3).stackAddr = stored →
      ∀ addr, addr < stored ∨ stored + 2 ≤ addr → t.mem.read addr = s.mem.read addr)

/-- U6, R5 `STACK_PAGE`: while SP names a two-byte slot of the stack page, JSR_ABS completes and writes only in that page
(the push at SP itself is the spec's decision D4, its upward direction D6). -/
def Obligations.JsrAbsInStackPageWritesOnlyThere : Prop :=
  ∀ (target : Word) (s : State), SpInStackPage s →
    ∃ t, exec (.jsrAbs target) s = .next t ∧
      ∀ addr, addr < 0x0100 ∨ 0x01FF < addr → t.mem.read addr = s.mem.read addr

/-- R11, R17, R20, R22: no step that answers a next state changes X, Y, the flags C, I, D, B, V, the reserved bit (kept as a
stored bit by the spec's decision D3) or the run state. -/
def Obligations.NoStepWritesInertState : Prop :=
  ∀ (k : OpcodeMap) (s t : State), stepWith k s = .next t →
    t.x = s.x ∧ t.y = s.y ∧ t.p.c = s.p.c ∧ t.p.i = s.p.i ∧ t.p.d = s.p.d ∧ t.p.b = s.p.b ∧ t.p.v = s.p.v ∧
    t.p.u = s.p.u ∧ t.run = s.run

/-- R16, R42: a step that changes SP or any byte of memory ran the handler of JSR_ABS. -/
def Obligations.OnlyJsrAbsWritesStackAndMemory : Prop :=
  ∀ (k : OpcodeMap) (s t : State), stepWith k s = .next t →
    (t.sp ≠ s.sp ∨ ∃ addr, t.mem.read addr ≠ s.mem.read addr) →
    ∃ e, lookup k (s.mem.read s.pc.toNat) = some e ∧ e.handler = .jsrAbs

/-- R103, R104: a step sends exactly one record, `(op, pc0)`, when the dispatcher finds no handler, and none otherwise. The
record's content is the spec's decision D12. -/
def Obligations.OneRecordPerUnrecognizedOpcode : Prop :=
  ∀ (k : OpcodeMap) (s t : State), stepWith k s = .next t →
    t.diag = match lookup k (s.mem.read s.pc.toNat) with
      | none => s.diag ++ [{ op := s.mem.read s.pc.toNat, pcAt := s.pc }]
      | some _ => s.diag

/-- R12, R13, R51: where PC stands after an instruction: its length further, modulo 65536 (the spec's decision D5), or at the
target of JSR_ABS. -/
def Obligations.PcAdvancesByLengthOrJumps : Prop :=
  ∀ (i : Instr) (s t : State), exec i s = .next t →
    t.pc = match i with
      | .jsrAbs target => target
      | i => s.pc + BitVec.ofNat 16 i.length

/-- R68, R76, R56: an instruction that completes charges the cost its entry of the dispatch table shows, an unrecognized
opcode one cycle. The costs of a word operand are the spec's decision D8. -/
def Obligations.CyclesMatchDispatchTable : Prop :=
  ∀ (k : OpcodeMap) (i : Instr) (s t : State), k.Distinct → i.wellFormedFor k = true → exec i s = .next t →
    t.cyc = s.cyc - (match lookup k (i.opcode k) with
      | some e => (e.cycles : Int)
      | none => 1)

/-- R56, R83: an instruction writes Z and N, from the new value of A, exactly when its entry's flag policy says so. -/
def Obligations.FlagsMatchDispatchPolicy : Prop :=
  ∀ (k : OpcodeMap) (i : Instr) (s t : State), k.Distinct → i.wellFormedFor k = true → exec i s = .next t →
    t.p = match lookup k (i.opcode k) with
      | some e => if e.setsZN then s.p.setZN t.a else s.p
      | none => s.p

/-! ## The step -/

/-- R69: when the bytes at PC decode to an instruction, a step in Running is its meaning; nothing is added around it. -/
def Obligations.StepRunsDecodedInstruction : Prop :=
  ∀ (s : State) (i : Instr) (rest : List Byte), s.run = .running →
    decode [s.mem.read s.pc.toNat, s.mem.read (s.pc + 1).toNat, s.mem.read (s.pc + 2).toNat] = .ok (i, rest) →
    step s = exec i s

/-- R50, R55, R69: an instruction whose encoding lies in memory at PC, addresses modulo 65536 (the spec's decision D5), is
the one a step runs, under any pairwise different opcode values. -/
def Obligations.StepRunsEncodedInstruction : Prop :=
  ∀ (k : OpcodeMap) (s : State) (i : Instr), k.Distinct → i.wellFormedFor k = true → s.run = .running →
    (∀ j, j < i.length → (encodeWith k i)[j]? = some (s.mem.read (s.pc + BitVec.ofNat 16 j).toNat)) →
    stepWith k s = exec i s

/-- R65: outside Running a step is refused. That the spec has a Faulted state and refuses there is its decision D11. -/
def Obligations.StepRefusedOutsideRunning : Prop :=
  ∀ (k : OpcodeMap) (s : State),
    (s.run = .idle → stepWith k s = .refused .executeInIdle) ∧
    (s.run = .faulted → stepWith k s = .refused .executeInFaulted)

/-- R69 with R72, R80, R81, R82, R90: the machine, which decodes whole instructions, does in every Running state what the
printed pseudocode does, whose handlers fetch their operands one byte at a time; faults included. The pseudocode carries the
spec's decisions D5 to D8, D10 and D12; that a fault is an outcome with the state left is the model's choice (log entry 6). -/
def Obligations.StepMatchesPseudocode : Prop :=
  ∀ (k : OpcodeMap) (s : State), s.run = .running → stepWith k s = pseudoStep k s

/-- R127: no data result of a step depends on the cycle counter, and the charge does not depend on it either. -/
def Obligations.StepIgnoresCycleCounter : Prop :=
  ∀ (k : OpcodeMap) (s t : State) (c : Int), stepWith k s = .next t →
    stepWith k { s with cyc := c } = .next { t with cyc := c + (t.cyc - s.cyc) }

/-- R42, R90 a: after JSR_ABS the next opcode fetched is the byte the push stored, when the target is one of the two stored
bytes, and the old byte of memory otherwise. Where the bytes lie is the spec's decisions D4 and D6. -/
def Obligations.FetchSeesPushedBytes : Prop :=
  ∀ (target : Word) (s : State), s.sp ≠ 0xFFFF →
    ∃ t, exec (.jsrAbs target) s = .next t ∧
      (fetchByte t).1 =
        if target = s.sp then lowByte (s.pc + 2)
        else if target = s.sp + 1 then highByte (s.pc + 2)
        else s.mem.read target.toNat

/-- The host's hook: the instruction the decoder reads from a table word is the one the very next step runs after
`withFetchWord` (the model's convention, log entry 11). -/
def Obligations.FetchWordIsExecuted : Prop :=
  ∀ (s : State) (nbits w : Nat) (i : Instr), decodeTableWord nbits w = some i →
    step (s.withFetchWord nbits w) = exec i (s.withFetchWord nbits w)

/-! ## Encoding -/

/-- R50 to R57: decoding the encoding of a well-formed instruction gives it back, with every operand at every value and
whatever bytes follow, under any pairwise different opcode values. -/
def Obligations.DecodeInvertsEncode : Prop :=
  ∀ (k : OpcodeMap) (i : Instr) (rest : List Byte), k.Distinct → i.wellFormedFor k = true →
    decodeWith k (encodeWith k i ++ rest) = .ok (i, rest)

/-- R50, R51: whatever decodes is the encoding of what it decodes to, followed by the rest, and is well formed. -/
def Obligations.EncodeInvertsDecode : Prop :=
  ∀ (k : OpcodeMap) (bytes rest : List Byte) (i : Instr),
    decodeWith k bytes = .ok (i, rest) → bytes = encodeWith k i ++ rest ∧ i.wellFormedFor k = true

/-- R51: the length is decided by the opcode byte alone, 2 for the three loads, 3 for JSR_ABS, 1 for each other byte; the bytes
after that length are left for the next opcode. With two bytes after the opcode, every opcode byte decodes. -/
def Obligations.LengthDecidedByOpcode : Prop :=
  ∀ (k : OpcodeMap) (op b1 b2 : Byte) (rest : List Byte), k.Distinct →
    ∃ i, decodeWith k (op :: b1 :: b2 :: rest) = .ok (i, (op :: b1 :: b2 :: rest).drop i.length) ∧
      i.length =
        if op = k.ldaIm ∨ op = k.ldaZp ∨ op = k.ldaZpx then 2
        else if op = k.jsrAbs then 3
        else 1

/-- R56: the dispatcher finds each key's entry, with its mode, cost and flag policy, and no entry for any other byte. -/
def Obligations.DispatchTableEntries : Prop :=
  ∀ k : OpcodeMap, k.Distinct →
    lookup k k.ldaIm = some { key := k.ldaIm, handler := .ldaIm, mode := .immediate, cycles := 2, setsZN := true } ∧
    lookup k k.ldaZp = some { key := k.ldaZp, handler := .ldaZp, mode := .zeroPage, cycles := 3, setsZN := true } ∧
    lookup k k.ldaZpx = some { key := k.ldaZpx, handler := .ldaZpx, mode := .zeroPageX, cycles := 4, setsZN := true } ∧
    lookup k k.jsrAbs = some { key := k.jsrAbs, handler := .jsrAbs, mode := .absolute, cycles := 5, setsZN := false } ∧
    ∀ op, op ≠ k.ldaIm → op ≠ k.ldaZp → op ≠ k.ldaZpx → op ≠ k.jsrAbs → lookup k op = none

/-- R55: words written out from the encodings decode to the instruction they stand for. The opcode values are the spec's
general knowledge (G2, log entry 1). -/
def Obligations.SpecWordsDecode : Prop :=
  decodeTableWord 16 0b0100001010101001 = some (.ldaIm 0x42) ∧
  decodeTableWord 16 0b0001000010100101 = some (.ldaZp 0x10) ∧
  decodeTableWord 16 0b1000000010110101 = some (.ldaZpx 0x80) ∧
  decodeTableWord 24 0b000100100011010000100000 = some (.jsrAbs 0x1234) ∧
  decodeTableWord 8 0b11101010 = some (.unrecognized 0xEA)

/-- R54: the target of JSR_ABS is the byte fetched first plus 256 times the second, used as it is, whatever bytes follow. -/
def Obligations.AbsoluteOperandLowByteFirst : Prop :=
  ∀ (k : OpcodeMap) (lo hi : Byte) (rest : List Byte), k.Distinct →
    ∃ target : Word, decodeWith k (k.jsrAbs :: lo :: hi :: rest) = .ok (.jsrAbs target, rest) ∧
      target.toNat = hi.toNat * 256 + lo.toNat

/-- R50, R51: an encoding is as long as its instruction and starts with its opcode byte. -/
def Obligations.EncodingHasInstructionLength : Prop :=
  ∀ (k : OpcodeMap) (i : Instr),
    (encodeWith k i).length = i.length ∧ (encodeWith k i).head? = some (i.opcode k) ∧ 1 ≤ i.length ∧ i.length ≤ 3

/-! ## Flags -/

/-- R83: `SetZN`: Z and N from the result, no other bit; the three outcomes, and Z = N = 1 is none of them. -/
def Obligations.SetZNRule : Prop :=
  ∀ (v : Byte) (p : Flags),
    p.setZN v = { p with z := decide (v = 0x00), n := v.getLsbD 7 } ∧
    (v.toNat = 0 → (p.setZN v).z = true ∧ (p.setZN v).n = false) ∧
    (0x01 ≤ v.toNat → v.toNat ≤ 0x7F → (p.setZN v).z = false ∧ (p.setZN v).n = false) ∧
    (0x80 ≤ v.toNat → (p.setZN v).z = false ∧ (p.setZN v).n = true) ∧
    ¬ ((p.setZN v).z = true ∧ (p.setZN v).n = true)

/-- R18: after any of the three loads Z and N agree with A, whatever they were before; right after reset they do not. -/
def Obligations.LoadsMakeFlagsAgree : Prop :=
  (∀ (d8 : Byte) (s : State),
    (∃ t, exec (.ldaIm d8) s = .next t ∧ FlagsAgree t) ∧
    (∃ t, exec (.ldaZp d8) s = .next t ∧ FlagsAgree t) ∧
    (∃ t, exec (.ldaZpx d8) s = .next t ∧ FlagsAgree t)) ∧
  ¬ FlagsAgree State.reset

/-- R18: once Z and N agree with A, every step keeps it so. -/
def Obligations.StepKeepsFlagsAgree : Prop :=
  ∀ (k : OpcodeMap) (s t : State), FlagsAgree s → stepWith k s = .next t → FlagsAgree t

/-- R19: under any layout that gives each flag a position of its own, packing loses nothing and unpacking is its inverse. -/
def Obligations.PackUnpackInverse : Prop :=
  ∀ (l : StatusLayout) (p : Flags) (w : Byte), l.Distinct →
    Flags.unpackWith l (p.packWith l) = p ∧ (Flags.unpackWith l w).packWith l = w

/-- R19, R20: the bit positions of the packed status byte, and that it is 0x00 right after reset. The positions are the spec's
general knowledge (G3, log entry 2), the zero of U its decision D3. -/
def Obligations.StatusByteLayout : Prop :=
  (∀ s : State,
    s.statusByte.getLsbD 7 = s.p.n ∧ s.statusByte.getLsbD 6 = s.p.v ∧ s.statusByte.getLsbD 5 = s.p.u ∧
    s.statusByte.getLsbD 4 = s.p.b ∧ s.statusByte.getLsbD 3 = s.p.d ∧ s.statusByte.getLsbD 2 = s.p.i ∧
    s.statusByte.getLsbD 1 = s.p.z ∧ s.statusByte.getLsbD 0 = s.p.c) ∧
  State.reset.statusByte = 0x00

/-! ## The memory interface -/

/-- R32: `MemRead(addr, 1)` raises `OutOfRange(addr)` from 65536 on and otherwise returns the byte there. -/
def Obligations.MemReadRule : Prop :=
  ∀ (addr : Nat) (s : State),
    (65536 ≤ addr → memRead addr s = .error addr) ∧ (addr < 65536 → memRead addr s = .ok (s.mem.read addr))

/-- R33: `MemWrite(addr, 1, v)` raises `OutOfRange(addr)` from 65536 on and otherwise changes that one byte and nothing
else; it charges no cycles. -/
def Obligations.MemWriteRule : Prop :=
  ∀ (addr : Nat) (v : Byte) (s : State),
    (65536 ≤ addr → memWrite addr v s = .error addr) ∧
    (addr < 65536 → ∃ m, memWrite addr v s = .ok { s with mem := m } ∧
      m.read addr = v ∧ ∀ other, other ≠ addr → m.read other = s.mem.read other)

/-- R34: the word write stores the low byte at the address and the high byte after it, charges 2 cycles and changes nothing
else; at 65535 it raises `OutOfRange(65536)`, from 65536 on `OutOfRange` of its own address. That nothing is written or
charged when it raises is the spec's decision D10. -/
def Obligations.MemWriteWordRule : Prop :=
  ∀ (addr : Nat) (v : Word) (s : State),
    (65536 ≤ addr → memWriteWord addr v s = .error addr) ∧
    (addr = 65535 → memWriteWord addr v s = .error 65536) ∧
    (addr < 65535 → ∃ m, memWriteWord addr v s = .ok { s with mem := m, cyc := s.cyc - 2 } ∧
      m.read addr = lowByte v ∧ m.read (addr + 1) = highByte v ∧
      ∀ other, other ≠ addr → other ≠ addr + 1 → m.read other = s.mem.read other)

/-- R36: a word written by the word-write helper is read back as it was, low byte first. -/
def Obligations.WordWriteReadsBack : Prop :=
  ∀ (addr : Nat) (v : Word) (s : State), addr < 65535 →
    ∃ t, memWriteWord addr v s = .ok t ∧ memReadWord addr t = .ok v ∧
      memRead addr t = .ok (BitVec.ofNat 8 (v.toNat % 256)) ∧ memRead (addr + 1) t = .ok (BitVec.ofNat 8 (v.toNat / 256))

/-- R35: `initialize` makes every byte 0x00 and touches nothing else. -/
def Obligations.InitializeZeroesMemory : Prop :=
  ∀ s : State, ∃ m, s.initialize = { s with mem := m } ∧ ∀ addr, m.read addr = 0x00

/-- R67, R13: `FetchByte()`: the byte at PC, which is never out of range; PC up by 1 modulo 65536 (the spec's decision D5), one
cycle charged (D8). -/
def Obligations.FetchByteRule : Prop :=
  ∀ s : State,
    memRead s.pc.toNat s = .ok (fetchByte s).1 ∧
    (fetchByte s).2.pc.toNat = (s.pc.toNat + 1) % 65536 ∧
    (fetchByte s).2 = { s with pc := (fetchByte s).2.pc, cyc := s.cyc - 1 }

/-- R43, R123: loading bytes at ascending addresses inside the array puts each byte at its address, leaves every other byte
and every other piece of state, the run state among them, as it was. -/
def Obligations.HostLoadPlacesBytes : Prop :=
  ∀ (bytes : List Byte) (addr : Nat) (s : State), addr + bytes.length ≤ 65536 →
    ∃ m, hostLoad addr bytes s = .ok { s with mem := m } ∧
      (∀ j (h : j < bytes.length), m.read (addr + j) = bytes[j]) ∧
      ∀ other, other < addr ∨ addr + bytes.length ≤ other → m.read other = s.mem.read other

/-! ## Invariants -/

/-- The canonical form of memory (the model's representation, log entry 14) holds after reset, from any state. -/
def Obligations.ResetMemoryCanonical : Prop :=
  State.reset.mem.wf ∧ ∀ s : State, s.hostReset.mem.wf

/-- The canonical form of memory (the model's representation, log entry 14) is kept by every step, and holds in the state a
fault leaves. -/
def Obligations.StepKeepsMemoryCanonical : Prop :=
  ∀ (k : OpcodeMap) (s : State), s.mem.wf →
    (∀ t, stepWith k s = .next t → t.mem.wf) ∧
    (∀ addr left, stepWith k s = .fault (.outOfRange addr left) → left.mem.wf)

/-- Two canonical memories that read alike at every address are the same list (the model's representation, log entry 14). -/
def Obligations.CanonicalMemoryIsUnique : Prop :=
  ∀ m n : Memory, m.wf → n.wf → (∀ addr, m.read addr = n.read addr) → m = n

/-- R26, R102: reset, from any state, establishes what holds in every reached state: Running, no fault address (log entry 4),
canonical memory (log entry 14), X, Y and the inert flags 0 (U by the spec's decision D3), SP even. -/
def Obligations.ResetEstablishesReachInv : Prop :=
  ReachInv State.reset ∧ ∀ s : State, ReachInv s.hostReset

/-- R11, R17, R20, R102: every step keeps what holds in every reached state: Running, no fault address (log entry 4), canonical
memory (log entry 14), X, Y and the inert flags 0, SP even (by the spec's decision D6). -/
def Obligations.StepKeepsReachInv : Prop :=
  ∀ (k : OpcodeMap) (s t : State), ReachInv s → stepWith k s = .next t → ReachInv t

/-- R101, R102: a step raises the fatal condition exactly when it runs JSR_ABS with SP = 0xFFFF, and then the address is
65536 (the unreduced SP + 1 is the spec's decision D10; the outcome's form is the model's, log entry 6). -/
def Obligations.FaultExactlyJsrAbsAtTop : Prop :=
  ∀ (k : OpcodeMap) (s : State),
    ((∃ f, stepWith k s = .fault f) ↔
      s.run = .running ∧ s.sp = 0xFFFF ∧
        ∃ e, lookup k (s.mem.read s.pc.toNat) = some e ∧ e.handler = .jsrAbs) ∧
    (∀ addr left, stepWith k s = .fault (.outOfRange addr left) → addr = 65536)

/-- R101: the address of the fatal condition is held exactly in Faulted (the model's convention, log entry 4): every step keeps
it so, and a fault leaves the reported address in the state. -/
def Obligations.FaultAddressHeldInFaulted : Prop :=
  ∀ (k : OpcodeMap) (s : State), FaultAddrAgrees s →
    (∀ t, stepWith k s = .next t → FaultAddrAgrees t) ∧
    (∀ addr left, stepWith k s = .fault (.outOfRange addr left) → FaultAddrAgrees left ∧ left.faultAddr = some addr)

/-- R102, R11, R17: in every state a host reaches by resets, writes and calls with any budgets, the invariant holds, the next
step completes, and no call is refused or ends in the fatal condition. The invariant's canonical memory and fault address are
the model's (log entries 14 and 4); the even SP rests on the spec's decision D6. -/
def Obligations.ReachableMachineNeverFaults : Prop :=
  ∀ (k : OpcodeMap) (s : State), HostReachable k s →
    ReachInv s ∧ (∃ t, stepWith k s = .next t) ∧
    ∀ budget, ∃ t consumed, executeWith k budget s = .returned t consumed

/-! ## The call `execute` -/

/-- R70: a budget of 0 does nothing and returns 0; that the counter's cell is as before is the model's choice (log entry 3). -/
def Obligations.ExecuteZeroDoesNothing : Prop :=
  ∀ (k : OpcodeMap) (s : State), s.run = .running → executeWith k 0 s = .returned s 0

/-- R65: in Idle and in Faulted the call is refused, whatever the budget; the refusal in Faulted is the spec's decision D11. -/
def Obligations.ExecuteRefusedOutsideRunning : Prop :=
  ∀ (k : OpcodeMap) (budget : Nat) (s : State),
    (s.run = .idle → executeWith k budget s = .refused .executeInIdle) ∧
    (s.run = .faulted → executeWith k budget s = .refused .executeInFaulted)

/-- R66, R71, R74: a call that returns has run steps from the state it was called in, at most as many as the budget, at least
one when the budget is positive, every one of them started with cycles left, until none was left. What it returns is the
budget less the last counter. Granularity and sign of the counter are the spec's decision D9; that the counter's cell is as
before the call is the model's choice (log entry 3). -/
def Obligations.ExecuteRunsUntilBudgetSpent : Prop :=
  ∀ (k : OpcodeMap) (budget : Nat) (s t : State) (consumed : Int),
    executeWith k budget s = .returned t consumed →
    ∃ n u, Steps k n { s with cyc := budget } u ∧ n ≤ budget ∧ (0 < budget → 0 < n) ∧ u.cyc ≤ 0 ∧
      (∀ m v, m < n → Steps k m { s with cyc := budget } v → 0 < v.cyc) ∧
      t = { u with cyc := s.cyc } ∧ consumed = budget - u.cyc

/-- R71: a call that returns has charged at least its budget and at most 4 cycles more (the spec's decision D9). -/
def Obligations.ExecuteOvershootAtMostFour : Prop :=
  ∀ (k : OpcodeMap) (budget : Nat) (s t : State) (consumed : Int),
    executeWith k budget s = .returned t consumed → (budget : Int) ≤ consumed ∧ consumed ≤ budget + 4

/-- R73: pausing is not observable: two calls one after the other end in the state of one call whose budget is what the first
charged plus the second's budget, and charge the same in all (the spec's decision D9). -/
def Obligations.ExecuteResumesWhereItPaused : Prop :=
  ∀ (k : OpcodeMap) (b1 b2 : Nat) (s s1 s2 : State) (c1 c2 : Int),
    executeWith k b1 s = .returned s1 c1 → executeWith k b2 s1 = .returned s2 c2 →
    executeWith k (c1.toNat + b2) s = .returned s2 (c1 + c2)

/-- R21, R73: a call does not read what the counter's cell holds when it starts (a cell between calls is the model's choice,
log entry 3). -/
def Obligations.ExecuteIgnoresStaleCounter : Prop :=
  ∀ (k : OpcodeMap) (budget : Nat) (s t : State) (c consumed : Int),
    executeWith k budget s = .returned t consumed →
    executeWith k budget { s with cyc := c } = .returned { t with cyc := c } consumed

/-- R101, R106, R109, R122: a call that ends in the fatal condition reports address 65536 and leaves Faulted with SP = 0xFFFF;
every further call is refused until reset, which returns the machine to Running. The Faulted state is the spec's decision D11.
That the address is also a cell of the state, which reset clears, and the canonical form of memory in the invariant are the
model's choices (log entries 4 and 14). -/
def Obligations.FatalCallLeavesFaulted : Prop :=
  ∀ (k : OpcodeMap) (budget addr : Nat) (s left : State) (charged : Int),
    executeWith k budget s = .fatal addr left charged →
    addr = 65536 ∧ left.run = .faulted ∧ left.faultAddr = some addr ∧ left.sp = 0xFFFF ∧
    (∀ b, executeWith k b left = .refused .executeInFaulted) ∧ ReachInv left.hostReset

/-- R72, R124: where every byte of memory is 0x00 and 0x00 is no key, a call of budget n runs n unrecognized opcodes: PC moves
n bytes on modulo 65536 (the spec's decision D5), n records (D12) are sent in order, n is returned and nothing else changes. That the
counter's cell is as before the call is the model's choice (log entry 3). -/
def Obligations.EmptyMemoryRunReportsEveryByte : Prop :=
  ∀ (k : OpcodeMap) (n : Nat) (s : State), lookup k 0x00 = none → s.run = .running →
    (∀ addr, s.mem.read addr = 0x00) →
    executeWith k n s = .returned { s with
      pc := s.pc + BitVec.ofNat 16 n
      diag := s.diag ++ (List.range n).map (fun j => { op := 0x00, pcAt := s.pc + BitVec.ofNat 16 j }) } n
end

