-- ==== Sys2Proof/Laws/Decode.lean ====
section
/-! SUPPORT. Everything the dispatcher can answer, for any opcode values, distinct or not. -/

namespace Sys2Proof

/-- The four hits of the table, first key first, and the miss. -/
theorem lookup_cases (k : OpcodeMap) (op : Byte) :
    (op = k.ldaIm ∧ lookup k op = some ⟨k.ldaIm, .ldaIm, .immediate, 2, true⟩) ∨
    (op = k.ldaZp ∧ lookup k op = some ⟨k.ldaZp, .ldaZp, .zeroPage, 3, true⟩) ∨
    (op = k.ldaZpx ∧ lookup k op = some ⟨k.ldaZpx, .ldaZpx, .zeroPageX, 4, true⟩) ∨
    (op = k.jsrAbs ∧ lookup k op = some ⟨k.jsrAbs, .jsrAbs, .absolute, 5, false⟩) ∨
    (op ≠ k.ldaIm ∧ op ≠ k.ldaZp ∧ op ≠ k.ldaZpx ∧ op ≠ k.jsrAbs ∧ lookup k op = none) := by
  unfold lookup dispatchTable
  by_cases h1 : op = k.ldaIm
  · simp [h1]
  by_cases h2 : op = k.ldaZp
  · right; left
    simp [← h2, Ne.symm h1]
  by_cases h3 : op = k.ldaZpx
  · right; right; left
    simp [← h3, Ne.symm h1, Ne.symm h2]
  by_cases h4 : op = k.jsrAbs
  · right; right; right; left
    simp [← h4, Ne.symm h1, Ne.symm h2, Ne.symm h3]
  · simp [h1, h2, h3, h4, Ne.symm h1, Ne.symm h2, Ne.symm h3, Ne.symm h4]

theorem operandCount_of_lookup {k : OpcodeMap} {op : Byte} {e : TableEntry} (h : lookup k op = some e) :
    operandCount k op = e.mode.operandBytes := by
  simp [operandCount, h]

theorem operandCount_of_miss {k : OpcodeMap} {op : Byte} (h : lookup k op = none) : operandCount k op = 0 := by
  simp [operandCount, h]

end Sys2Proof
end

