-- ==== Sys2Proof/Laws/Memory.lean ====
section
/-! SUPPORT. The laws of the memory array: read after write, for every list of cells, and that writing keeps the canonical
form. -/

namespace Sys2Proof.Machine

@[simp] theorem Memory.read_nil (addr : Nat) : Memory.read [] addr = 0 := rfl

/-- A cell of a new address, wherever it is put, is read at its address and hides no other. -/
theorem Memory.read_insertCell (c : Host.Cell) (m : Memory) (addr : Nat) (h : ∀ d ∈ m, d.1 ≠ c.1) :
    (Memory.insertCell c m).read addr = if addr = c.1 then c.2 else m.read addr := by
  induction m with
  | nil => simp [Memory.insertCell, Memory.read, eq_comm]
  | cons d rest ih =>
    have hd : d.1 ≠ c.1 := h d (by simp)
    have ih := ih (fun e he => h e (by simp [he]))
    by_cases hlt : c.1 < d.1
    · simp [Memory.insertCell, hlt, Memory.read, eq_comm]
    · simp only [Memory.insertCell, hlt, if_false, Memory.read, ih]
      by_cases ha : addr = c.1
      · simp [ha, hd]
      · simp [ha]

/-- Without the cells of one address, that address reads as unlisted and every other as before. -/
theorem Memory.read_others (m : Memory) (addr other : Nat) :
    Memory.read (m.filter (fun c => c.1 != addr)) other = if other = addr then Memory.unlisted else m.read other := by
  induction m with
  | nil => simp [Memory.unlisted]
  | cons d rest ih =>
    by_cases hd : d.1 = addr
    · by_cases ho : other = addr
      · simpa [List.filter_cons, hd, ho] using ih
      · simpa [List.filter_cons, hd, Memory.read, ho, Ne.symm ho] using ih
    · by_cases ho : other = addr
      · subst ho
        simpa [List.filter_cons, hd, Memory.read] using ih
      · have hf : List.filter (fun c : Host.Cell => c.1 != addr) (d :: rest)
            = d :: rest.filter (fun c => c.1 != addr) := by simp [hd]
        simp only [hf, Memory.read, ih, ho, if_false]

/-- Reading after a write: the byte written at its address, the old byte everywhere else. Holds of every list of cells,
canonical or not. -/
theorem Memory.read_write (m : Memory) (addr other : Nat) (v : Byte) :
    (m.write addr v).read other = if other = addr then v else m.read other := by
  by_cases hv : v = Memory.unlisted
  · simp only [Memory.write, hv, if_true, Memory.read_others]
  · have hi := Memory.read_insertCell (addr, v) (m.filter (fun c => c.1 != addr)) other (by simp)
    simp only [Memory.write, hv, if_false, hi, Memory.read_others]
    split <;> rfl

@[simp] theorem Memory.read_write_same (m : Memory) (addr : Nat) (v : Byte) : (m.write addr v).read addr = v := by
  simp [Memory.read_write]

theorem Memory.read_write_other (m : Memory) {addr other : Nat} (v : Byte) (h : other ≠ addr) :
    (m.write addr v).read other = m.read other := by
  simp [Memory.read_write, h]

theorem Memory.mem_insertCell (c d : Host.Cell) (m : Memory) : d ∈ Memory.insertCell c m ↔ d = c ∨ d ∈ m := by
  induction m with
  | nil => simp [Memory.insertCell]
  | cons e rest ih =>
    by_cases h : c.1 < e.1
    · simp [Memory.insertCell, h]
    · simp [Memory.insertCell, h, ih, or_left_comm]

theorem Memory.pairwise_insertCell (c : Host.Cell) (m : Memory) (hs : m.Pairwise (fun a b => a.1 < b.1))
    (hc : ∀ d ∈ m, d.1 ≠ c.1) : (Memory.insertCell c m).Pairwise (fun a b => a.1 < b.1) := by
  induction m with
  | nil => simp [Memory.insertCell]
  | cons e rest ih =>
    have he : e.1 ≠ c.1 := hc e (by simp)
    obtain ⟨hhead, htail⟩ := List.pairwise_cons.mp hs
    by_cases h : c.1 < e.1
    · simp only [Memory.insertCell, h, if_true]
      refine List.pairwise_cons.mpr ⟨fun d hd => ?_, hs⟩
      rcases List.mem_cons.mp hd with rfl | hd
      · exact h
      · exact lt_trans h (hhead d hd)
    · simp only [Memory.insertCell, h, if_false]
      refine List.pairwise_cons.mpr ⟨fun d hd => ?_, ih htail (fun d hd => hc d (by simp [hd]))⟩
      rcases (Memory.mem_insertCell c d rest).mp hd with rfl | hd
      · omega
      · exact hhead d hd

/-- The empty memory of reset is canonical. -/
theorem Memory.wf_nil : Memory.wf [] := ⟨List.Pairwise.nil, fun _ h => nomatch h⟩

/-- A write inside the array keeps the canonical form. -/
theorem Memory.wf_write (m : Memory) (addr : Nat) (v : Byte) (hm : m.wf) (ha : addr < memSize) :
    (m.write addr v).wf := by
  obtain ⟨hs, hb⟩ := hm
  have hs' := List.Pairwise.filter (fun c : Host.Cell => c.1 != addr) hs
  by_cases hv : v = Memory.unlisted
  · simp only [Memory.write, hv, if_true]
    exact ⟨hs', fun c hc => hb c (List.mem_of_mem_filter hc)⟩
  · simp only [Memory.write, hv, if_false]
    refine ⟨Memory.pairwise_insertCell _ _ hs' (by simp), fun c hc => ?_⟩
    rcases (Memory.mem_insertCell _ _ _).mp hc with rfl | hc
    · exact ⟨ha, hv⟩
    · exact hb c (List.mem_of_mem_filter hc)

end Sys2Proof.Machine
end

