-- ==== Sys2Proof/Laws/State.lean ====
section
/-! SUPPORT. One lemma per field and update of the state, so that no proof unfolds a record update. -/

namespace Sys2Proof.Machine

/-! ## `State.charge` -/

@[simp] theorem State.charge_a (k : Nat) (s : State) : (s.charge k).a = s.a := rfl
@[simp] theorem State.charge_x (k : Nat) (s : State) : (s.charge k).x = s.x := rfl
@[simp] theorem State.charge_y (k : Nat) (s : State) : (s.charge k).y = s.y := rfl
@[simp] theorem State.charge_pc (k : Nat) (s : State) : (s.charge k).pc = s.pc := rfl
@[simp] theorem State.charge_sp (k : Nat) (s : State) : (s.charge k).sp = s.sp := rfl
@[simp] theorem State.charge_p (k : Nat) (s : State) : (s.charge k).p = s.p := rfl
@[simp] theorem State.charge_mem (k : Nat) (s : State) : (s.charge k).mem = s.mem := rfl
@[simp] theorem State.charge_run (k : Nat) (s : State) : (s.charge k).run = s.run := rfl
@[simp] theorem State.charge_cyc (k : Nat) (s : State) : (s.charge k).cyc = s.cyc - k := rfl
@[simp] theorem State.charge_diag (k : Nat) (s : State) : (s.charge k).diag = s.diag := rfl
@[simp] theorem State.charge_faultAddr (k : Nat) (s : State) : (s.charge k).faultAddr = s.faultAddr := rfl

/-! ## `State.fetched` -/

@[simp] theorem State.fetched_a (n : Nat) (s : State) : (s.fetched n).a = s.a := rfl
@[simp] theorem State.fetched_x (n : Nat) (s : State) : (s.fetched n).x = s.x := rfl
@[simp] theorem State.fetched_y (n : Nat) (s : State) : (s.fetched n).y = s.y := rfl
@[simp] theorem State.fetched_pc (n : Nat) (s : State) : (s.fetched n).pc = s.pc + BitVec.ofNat 16 n := rfl
@[simp] theorem State.fetched_sp (n : Nat) (s : State) : (s.fetched n).sp = s.sp := rfl
@[simp] theorem State.fetched_p (n : Nat) (s : State) : (s.fetched n).p = s.p := rfl
@[simp] theorem State.fetched_mem (n : Nat) (s : State) : (s.fetched n).mem = s.mem := rfl
@[simp] theorem State.fetched_run (n : Nat) (s : State) : (s.fetched n).run = s.run := rfl
@[simp] theorem State.fetched_cyc (n : Nat) (s : State) : (s.fetched n).cyc = s.cyc - n := by
  simp [State.fetched, State.charge, costFetch]
@[simp] theorem State.fetched_diag (n : Nat) (s : State) : (s.fetched n).diag = s.diag := rfl
@[simp] theorem State.fetched_faultAddr (n : Nat) (s : State) : (s.fetched n).faultAddr = s.faultAddr := rfl

/-! ## `State.loadA` -/

@[simp] theorem State.loadA_a (v : Byte) (s : State) : (s.loadA v).a = v := rfl
@[simp] theorem State.loadA_x (v : Byte) (s : State) : (s.loadA v).x = s.x := rfl
@[simp] theorem State.loadA_y (v : Byte) (s : State) : (s.loadA v).y = s.y := rfl
@[simp] theorem State.loadA_pc (v : Byte) (s : State) : (s.loadA v).pc = s.pc := rfl
@[simp] theorem State.loadA_sp (v : Byte) (s : State) : (s.loadA v).sp = s.sp := rfl
@[simp] theorem State.loadA_p (v : Byte) (s : State) : (s.loadA v).p = s.p.setZN v := rfl
@[simp] theorem State.loadA_mem (v : Byte) (s : State) : (s.loadA v).mem = s.mem := rfl
@[simp] theorem State.loadA_run (v : Byte) (s : State) : (s.loadA v).run = s.run := rfl
@[simp] theorem State.loadA_cyc (v : Byte) (s : State) : (s.loadA v).cyc = s.cyc := rfl
@[simp] theorem State.loadA_diag (v : Byte) (s : State) : (s.loadA v).diag = s.diag := rfl
@[simp] theorem State.loadA_faultAddr (v : Byte) (s : State) : (s.loadA v).faultAddr = s.faultAddr := rfl

/-! ## `State.jump` -/

@[simp] theorem State.jump_a (t : Word) (s : State) : (s.jump t).a = s.a := rfl
@[simp] theorem State.jump_x (t : Word) (s : State) : (s.jump t).x = s.x := rfl
@[simp] theorem State.jump_y (t : Word) (s : State) : (s.jump t).y = s.y := rfl
@[simp] theorem State.jump_pc (t : Word) (s : State) : (s.jump t).pc = t := rfl
@[simp] theorem State.jump_sp (t : Word) (s : State) : (s.jump t).sp = s.sp := rfl
@[simp] theorem State.jump_p (t : Word) (s : State) : (s.jump t).p = s.p := rfl
@[simp] theorem State.jump_mem (t : Word) (s : State) : (s.jump t).mem = s.mem := rfl
@[simp] theorem State.jump_run (t : Word) (s : State) : (s.jump t).run = s.run := rfl
@[simp] theorem State.jump_cyc (t : Word) (s : State) : (s.jump t).cyc = s.cyc := rfl
@[simp] theorem State.jump_diag (t : Word) (s : State) : (s.jump t).diag = s.diag := rfl
@[simp] theorem State.jump_faultAddr (t : Word) (s : State) : (s.jump t).faultAddr = s.faultAddr := rfl

/-! ## `State.emitDiag` -/

@[simp] theorem State.emitDiag_a (op : Byte) (at_ : Word) (s : State) : (s.emitDiag op at_).a = s.a := rfl
@[simp] theorem State.emitDiag_x (op : Byte) (at_ : Word) (s : State) : (s.emitDiag op at_).x = s.x := rfl
@[simp] theorem State.emitDiag_y (op : Byte) (at_ : Word) (s : State) : (s.emitDiag op at_).y = s.y := rfl
@[simp] theorem State.emitDiag_pc (op : Byte) (at_ : Word) (s : State) : (s.emitDiag op at_).pc = s.pc := rfl
@[simp] theorem State.emitDiag_sp (op : Byte) (at_ : Word) (s : State) : (s.emitDiag op at_).sp = s.sp := rfl
@[simp] theorem State.emitDiag_p (op : Byte) (at_ : Word) (s : State) : (s.emitDiag op at_).p = s.p := rfl
@[simp] theorem State.emitDiag_mem (op : Byte) (at_ : Word) (s : State) : (s.emitDiag op at_).mem = s.mem := rfl
@[simp] theorem State.emitDiag_run (op : Byte) (at_ : Word) (s : State) : (s.emitDiag op at_).run = s.run := rfl
@[simp] theorem State.emitDiag_cyc (op : Byte) (at_ : Word) (s : State) : (s.emitDiag op at_).cyc = s.cyc := rfl
@[simp] theorem State.emitDiag_diag (op : Byte) (at_ : Word) (s : State) : (s.emitDiag op at_).diag = s.diag ++ [{ op := op, pcAt := at_ }] := rfl
@[simp] theorem State.emitDiag_faultAddr (op : Byte) (at_ : Word) (s : State) : (s.emitDiag op at_).faultAddr = s.faultAddr := rfl

/-! ## `State.initialize` -/

@[simp] theorem State.initialize_a (s : State) : (s.initialize).a = s.a := rfl
@[simp] theorem State.initialize_x (s : State) : (s.initialize).x = s.x := rfl
@[simp] theorem State.initialize_y (s : State) : (s.initialize).y = s.y := rfl
@[simp] theorem State.initialize_pc (s : State) : (s.initialize).pc = s.pc := rfl
@[simp] theorem State.initialize_sp (s : State) : (s.initialize).sp = s.sp := rfl
@[simp] theorem State.initialize_p (s : State) : (s.initialize).p = s.p := rfl
@[simp] theorem State.initialize_mem (s : State) : (s.initialize).mem = [] := rfl
@[simp] theorem State.initialize_run (s : State) : (s.initialize).run = s.run := rfl
@[simp] theorem State.initialize_cyc (s : State) : (s.initialize).cyc = s.cyc := rfl
@[simp] theorem State.initialize_diag (s : State) : (s.initialize).diag = s.diag := rfl
@[simp] theorem State.initialize_faultAddr (s : State) : (s.initialize).faultAddr = s.faultAddr := rfl

/-! ## `State.hostReset` -/

@[simp] theorem State.hostReset_a (s : State) : (s.hostReset).a = 0 := rfl
@[simp] theorem State.hostReset_x (s : State) : (s.hostReset).x = 0 := rfl
@[simp] theorem State.hostReset_y (s : State) : (s.hostReset).y = 0 := rfl
@[simp] theorem State.hostReset_pc (s : State) : (s.hostReset).pc = resetPc := rfl
@[simp] theorem State.hostReset_sp (s : State) : (s.hostReset).sp = resetSp := rfl
@[simp] theorem State.hostReset_p (s : State) : (s.hostReset).p = Flags.clear := rfl
@[simp] theorem State.hostReset_mem (s : State) : (s.hostReset).mem = [] := rfl
@[simp] theorem State.hostReset_run (s : State) : (s.hostReset).run = .running := rfl
@[simp] theorem State.hostReset_cyc (s : State) : (s.hostReset).cyc = s.cyc := rfl
@[simp] theorem State.hostReset_diag (s : State) : (s.hostReset).diag = s.diag := rfl
@[simp] theorem State.hostReset_faultAddr (s : State) : (s.hostReset).faultAddr = none := rfl

/-! ## The flags -/

@[simp] theorem Flags.setZN_c (v : Byte) (p : Flags) : (p.setZN v).c = p.c := rfl
@[simp] theorem Flags.setZN_z (v : Byte) (p : Flags) : (p.setZN v).z = (v == 0) := rfl
@[simp] theorem Flags.setZN_i (v : Byte) (p : Flags) : (p.setZN v).i = p.i := rfl
@[simp] theorem Flags.setZN_d (v : Byte) (p : Flags) : (p.setZN v).d = p.d := rfl
@[simp] theorem Flags.setZN_b (v : Byte) (p : Flags) : (p.setZN v).b = p.b := rfl
@[simp] theorem Flags.setZN_u (v : Byte) (p : Flags) : (p.setZN v).u = p.u := rfl
@[simp] theorem Flags.setZN_v (v : Byte) (p : Flags) : (p.setZN v).v = p.v := rfl
@[simp] theorem Flags.setZN_n (v : Byte) (p : Flags) : (p.setZN v).n = v.getLsbD 7 := rfl

@[simp] theorem Flags.clear_c : Flags.clear.c = false := rfl
@[simp] theorem Flags.clear_z : Flags.clear.z = false := rfl
@[simp] theorem Flags.clear_i : Flags.clear.i = false := rfl
@[simp] theorem Flags.clear_d : Flags.clear.d = false := rfl
@[simp] theorem Flags.clear_b : Flags.clear.b = false := rfl
@[simp] theorem Flags.clear_u : Flags.clear.u = false := rfl
@[simp] theorem Flags.clear_v : Flags.clear.v = false := rfl
@[simp] theorem Flags.clear_n : Flags.clear.n = false := rfl

end Sys2Proof.Machine
end

