-- ==== Sys2Proof/Laws/Ops.lean ====
section
/-! SUPPORT. One lemma per shared operation: everything it can do. -/

namespace Sys2Proof.Machine

/-! ## Bytes and addresses -/

theorem wordOf_toNat (lo hi : Byte) : (wordOf lo hi).toNat = hi.toNat * 256 + lo.toNat := by
  have := lo.isLt
  have := hi.isLt
  simp only [wordOf, BitVec.toNat_ofNat]
  omega

theorem lowByte_toNat (v : Word) : (lowByte v).toNat = v.toNat % 256 := by
  simp [lowByte]

theorem highByte_toNat (v : Word) : (highByte v).toNat = v.toNat / 256 := by
  have := v.isLt
  simp only [highByte, BitVec.toNat_setWidth, BitVec.toNat_ushiftRight, Nat.shiftRight_eq_div_pow]
  omega

theorem lowByte_wordOf (lo hi : Byte) : lowByte (wordOf lo hi) = lo := by
  have := lo.isLt
  apply BitVec.eq_of_toNat_eq
  rw [lowByte_toNat, wordOf_toNat]
  omega

theorem highByte_wordOf (lo hi : Byte) : highByte (wordOf lo hi) = hi := by
  have := lo.isLt
  apply BitVec.eq_of_toNat_eq
  rw [highByte_toNat, wordOf_toNat]
  omega

theorem wordOf_lowByte_highByte (v : Word) : wordOf (lowByte v) (highByte v) = v := by
  apply BitVec.eq_of_toNat_eq
  rw [wordOf_toNat, highByte_toNat, lowByte_toNat]
  omega

/-- A zero-page address is the operand byte, as a number. -/
theorem zeroPage_toNat (d8 : Byte) : (zeroPage d8).toNat = d8.toNat := by
  have := d8.isLt
  simp only [zeroPage, BitVec.toNat_setWidth]
  omega

/-- The indexed zero-page address is the sum modulo 256, as a number. -/
theorem zeroPageX_toNat (d8 x : Byte) : (zeroPageX d8 x).toNat = (d8.toNat + x.toNat) % 256 := by
  simp only [zeroPageX, BitVec.toNat_setWidth, BitVec.toNat_add]
  omega

/-! ## The memory interface -/

theorem memRead_inside {addr : Nat} (s : State) (h : addr < 65536) : memRead addr s = .ok (s.mem.read addr) := by
  have : ¬ 65536 ≤ addr := by omega
  simp [memRead, this]

theorem memRead_outside {addr : Nat} (s : State) (h : 65536 ≤ addr) : memRead addr s = .error addr := by
  simp [memRead, h]

/-- An address held in a 16-bit register is inside the array. -/
theorem memRead_word (w : Word) (s : State) : memRead w.toNat s = .ok (s.mem.read w.toNat) :=
  memRead_inside s w.isLt

theorem memWrite_ok {addr : Nat} {v : Byte} {s s' : State} (h : memWrite addr v s = .ok s') :
    addr < 65536 ∧ s' = { s with mem := s.mem.write addr v } := by
  unfold memWrite at h
  split at h
  · cases h
  · rename_i hn
    simp at hn
    cases h
    exact ⟨hn, rfl⟩

/-- Where the word-write helper answers and what it leaves. -/
theorem memWriteWord_ok {addr : Nat} {v : Word} {s s' : State} (h : memWriteWord addr v s = .ok s') :
    addr + 1 < 65536 ∧
      s' = State.charge costWriteWord { s with mem := (s.mem.write addr (lowByte v)).write (addr + 1) (highByte v) } := by
  unfold memWriteWord at h
  split at h
  · cases h
  split at h
  · cases h
  · rename_i _ hn
    simp at hn
    cases h
    exact ⟨by omega, rfl⟩

/-! ## The loads' data read -/

/-- A data read at a 16-bit address never raises the condition. -/
theorem loadFrom_word (w : Word) (s : State) :
    loadFrom w.toNat s = .next ((s.charge costRead).loadA (s.mem.read w.toNat)) := by
  simp [loadFrom, memRead_word]

/-! ## The push -/

/-- A push answers exactly when both bytes fit below the end of the array; what it leaves. -/
theorem pushWord_inside {s : State} (v : Word) (h : s.sp.toNat < 65535) :
    pushWord v s = .ok { State.charge costWriteWord
      { s with mem := (s.mem.write s.sp.toNat (lowByte v)).write (s.sp.toNat + 1) (highByte v) } with sp := s.sp + 2 } := by
  have h1 : ¬ 65536 ≤ s.sp.toNat := by omega
  have h2 : ¬ 65535 ≤ s.sp.toNat := by omega
  simp [pushWord, memWriteWord, State.stackAddr, h1, h2, State.charge]

/-- A push at the last address of the array raises `OutOfRange(65536)`. -/
theorem pushWord_outside {s : State} (v : Word) (h : s.sp.toNat = 65535) : pushWord v s = .error 65536 := by
  simp [pushWord, memWriteWord, State.stackAddr, h]

end Sys2Proof.Machine
end

