-- ==== Sys2Proof/Laws/PerInstr.lean ====
section
/-! SUPPORT. Statements about every instruction as syntax, one lemma per constructor. -/

/-- The encoding of an instruction is as long as R51 says and starts with its opcode byte (R50). -/
def Sys2Proof.Laws.EncodedShape.Statement (i : Sys2Proof.Instr) : Prop :=
  ∀ k : Sys2Proof.OpcodeMap,
    (Sys2Proof.encodeWith k i).length = i.length ∧ (Sys2Proof.encodeWith k i).head? = some (i.opcode k)

theorem Sys2Proof.Laws.EncodedShape.ldaIm (d8 : Sys2Proof.Byte) :
    Sys2Proof.Laws.EncodedShape.Statement (.ldaIm d8) := fun _ => ⟨rfl, rfl⟩

theorem Sys2Proof.Laws.EncodedShape.ldaZp (d8 : Sys2Proof.Byte) :
    Sys2Proof.Laws.EncodedShape.Statement (.ldaZp d8) := fun _ => ⟨rfl, rfl⟩

theorem Sys2Proof.Laws.EncodedShape.ldaZpx (d8 : Sys2Proof.Byte) :
    Sys2Proof.Laws.EncodedShape.Statement (.ldaZpx d8) := fun _ => ⟨rfl, rfl⟩

theorem Sys2Proof.Laws.EncodedShape.jsrAbs (target : Sys2Proof.Word) :
    Sys2Proof.Laws.EncodedShape.Statement (.jsrAbs target) := fun _ => ⟨rfl, rfl⟩

theorem Sys2Proof.Laws.EncodedShape.unrecognized (op : Sys2Proof.Byte) :
    Sys2Proof.Laws.EncodedShape.Statement (.unrecognized op) := fun _ => ⟨rfl, rfl⟩
end

