-- ==== Sys2Proof/Laws/Step.lean ====
section
/-! SUPPORT. What the step adds around a meaning: the run state's test and the fetch. -/

namespace Sys2Proof.Machine

theorem stepWith_running (k : OpcodeMap) {s : State} (h : s.run = .running) :
    stepWith k s = exec (fetchInstr k s) s := by
  simp [stepWith, h]

/-- A step that answers a next state ran the meaning of the fetched instruction in Running. -/
theorem stepWith_next {k : OpcodeMap} {s t : State} (h : stepWith k s = .next t) :
    s.run = .running ∧ exec (fetchInstr k s) s = .next t := by
  unfold stepWith at h
  split at h
  · cases h
  · cases h
  · exact ⟨‹_›, h⟩

/-- A step that faults ran the meaning of the fetched instruction in Running. -/
theorem stepWith_fault {k : OpcodeMap} {s : State} {f : Fault} (h : stepWith k s = .fault f) :
    s.run = .running ∧ exec (fetchInstr k s) s = .fault f := by
  unfold stepWith at h
  split at h
  · cases h
  · cases h
  · exact ⟨‹_›, h⟩

/-- The fetch when the dispatcher finds an entry. -/
theorem fetchInstr_of_lookup {k : OpcodeMap} {s : State} {e : TableEntry}
    (h : lookup k (s.mem.read s.pc.toNat) = some e) :
    fetchInstr k s = assemble e.handler (s.mem.read (s.pc + 1).toNat) (s.mem.read (s.pc + 2).toNat) := by
  simp [fetchInstr, decodeFetched, h]

/-- The fetch when the dispatcher finds none. -/
theorem fetchInstr_of_miss {k : OpcodeMap} {s : State} (h : lookup k (s.mem.read s.pc.toNat) = none) :
    fetchInstr k s = .unrecognized (s.mem.read s.pc.toNat) := by
  simp [fetchInstr, decodeFetched, h]

end Sys2Proof.Machine
end

