-- ==== Sys2Proof/Tests/Slice0.lean ====
section
/-! SUPPORT. The model's own tests, each with its source in spec/, and for every statement with hypotheses a named witness
that meets all of them together, one for each clause. -/

namespace Sys2Proof.Tests

open Sys2Proof Sys2Proof.Machine

/-- The reset state with PC, SP, X and memory preset (95_test_vectors.md, the rows marked NR). -/
def preset (pc sp : Word) (x : Byte) (mem : Memory) : State :=
  { State.reset with pc := pc, sp := sp, x := x, mem := mem }

/-- The next state of an outcome, if it is one. -/
def nextOf : Host.Outcome State Fault Refusal → Option State
  | .next s => some s
  | .fault _ => none
  | .refused _ => none

/-- The fault of an outcome, if it is one. -/
def faultOf : Host.Outcome State Fault Refusal → Option Fault
  | .next _ => none
  | .fault f => some f
  | .refused _ => none

/-! ## WellFormed: an ill-formed term for each check (R57) -/

theorem test_wf_refuses_lda_im_key : (Instr.unrecognized 0xA9).wellFormed = false := by decide
theorem test_wf_refuses_lda_zp_key : (Instr.unrecognized 0xA5).wellFormed = false := by decide
theorem test_wf_refuses_lda_zpx_key : (Instr.unrecognized 0xB5).wellFormed = false := by decide
theorem test_wf_refuses_jsr_key : (Instr.unrecognized 0x20).wellFormed = false := by decide
theorem test_wf_accepts_other_byte : (Instr.unrecognized 0xEA).wellFormed = true := by decide
theorem test_opcodes_distinct : opcodes.Distinct := by decide

/-! ## Decoding: words written out bit by bit from R50 and R55 -/

/-- `10101001 dddddddd` with d8 = 0x42, byte 1 in bits 15..8 (30_encoding.md R50, R55). -/
theorem test_decode_lda_im : decodeTableWord 16 0b0100001010101001 = some (.ldaIm 0x42) := by decide
/-- `10100101 dddddddd` with d8 = 0x10. -/
theorem test_decode_lda_zp : decodeTableWord 16 0b0001000010100101 = some (.ldaZp 0x10) := by decide
/-- `10110101 dddddddd` with d8 = 0x80. -/
theorem test_decode_lda_zpx : decodeTableWord 16 0b1000000010110101 = some (.ldaZpx 0x80) := by decide
/-- `00100000 llllllll hhhhhhhh` with ll = 0x34, hh = 0x12. -/
theorem test_decode_jsr_abs : decodeTableWord 24 0b000100100011010000100000 = some (.jsrAbs 0x1234) := by decide
/-- `oooooooo` with the byte of vector L10. -/
theorem test_decode_unrecognized : decodeTableWord 8 0b11101010 = some (.unrecognized 0xEA) := by decide
/-- A list that ends inside the operand is rejected by name. -/
theorem test_decode_missing_operand : (decode [0x20, 0x34]).toOption = none := by decide
/-- The listing of program P1: `20 00 02`. -/
theorem test_encode_jsr_abs : encode (.jsrAbs 0x0200) = [0x20, 0x00, 0x02] := by decide

/-! ## Reset (95_test_vectors.md S1, T5) -/

theorem test_reset_pc_sp : State.reset.pc = 0xFFFC ∧ State.reset.sp = 0x0100 := by decide
theorem test_reset_keeps_diag :
    (State.hostReset { State.reset with diag := [⟨0, 0xFFFC⟩], a := 0x12 }) =
      { State.reset with diag := [⟨0, 0xFFFC⟩] } := by decide

/-! ## One step each, from 95_test_vectors.md -/

/-- I10: the operand of an instruction at FFFF is fetched from 0000. -/
theorem test_lda_im_wraps_pc :
    (nextOf (step (preset 0xFFFF 0x0100 0 [(0x0000, 0x80), (0xFFFF, 0xA9)]))).map (fun s => (s.a, s.pc, s.p.z, s.p.n)) =
      some (0x80, 0x0001, false, true) := by decide

/-- I7: a stale N is cleared and Z set. -/
theorem test_lda_im_clears_stale_flags :
    (nextOf (exec (.ldaIm 0x00) { State.reset with a := 0xFF, p := { Flags.clear with n := true } })).map
      (fun s => (s.a, s.p.z, s.p.n)) = some (0x00, true, false) := by decide

/-- Z7: the instruction loads its own opcode byte. -/
theorem test_lda_zp_own_opcode :
    (nextOf (step (preset 0x0010 0x0100 0 [(0x0010, 0xA5), (0x0011, 0x10)]))).map (fun s => (s.a, s.pc, s.p.n, s.cyc)) =
      some (0xA5, 0x0012, true, -3) := by decide

/-- Z5: the last byte of the zero page, not that of page 1. -/
theorem test_lda_zp_last_byte :
    (nextOf (step (preset 0x0200 0x0100 0 [(0x00FF, 0x01), (0x01FF, 0xEE), (0x0200, 0xA5), (0x0201, 0xFF)]))).map
      (fun s => (s.a, s.p.z, s.p.n)) = some (0x01, false, false) := by decide

/-- X5: the sum wraps inside the zero page. -/
theorem test_lda_zpx_wraps :
    (nextOf (step (preset 0x0200 0x0100 0x02 [(0x0001, 0x7F), (0x0101, 0xEE), (0x0200, 0xB5), (0x0201, 0xFF)]))).map
      (fun s => (s.a, s.x, s.cyc)) = some (0x7F, 0x02, -4) := by decide

/-- X4: the byte at the base is not the one read. -/
theorem test_lda_zpx_reads_indexed_byte :
    (nextOf (step (preset 0x0200 0x0100 0x05 [(0x0010, 0xEE), (0x0200, 0xB5), (0x0201, 0x10)]))).map
      (fun s => (s.a, s.p.z)) = some (0x00, true) := by decide

/-- J10: the push lands on the instruction's own operand bytes after they were fetched. -/
theorem test_jsr_over_own_operands :
    (nextOf (step (preset 0x0200 0x0201 0 [(0x0200, 0x20), (0x0201, 0x34), (0x0202, 0x12)]))).map
      (fun s => (s.pc, s.sp, s.mem)) =
        some (0x1234, 0x0203, [(0x0200, 0x20), (0x0201, 0x02), (0x0202, 0x02)]) := by decide

/-- J8: the fatal condition; PC moved by 3, three cycles charged, nothing pushed. -/
theorem test_jsr_out_of_range :
    faultOf (step { preset 0x0200 0xFFFF 0 [(0x0200, 0x20), (0x0201, 0x34), (0x0202, 0x12)] with cyc := 10 }) =
      some (.outOfRange 65536
        { preset 0x0203 0xFFFF 0 [(0x0200, 0x20), (0x0201, 0x34), (0x0202, 0x12)] with
          cyc := 7, run := .faulted, faultAddr := some 65536 }) := by decide

/-- L10: a byte that has a meaning on another processor gets no special treatment. -/
theorem test_unrecognized_reports :
    (nextOf (step (preset 0xFFFC 0x0100 0 [(0xFFFC, 0xEA)]))).map (fun s => (s.pc, s.cyc, s.diag)) =
      some (0xFFFD, -1, [⟨0xEA, 0xFFFC⟩]) := by decide

/-- The hook runs the word's instruction as the first instruction after reset. -/
theorem test_fetch_word :
    (nextOf (step (State.reset.withFetchWord 24 0x123420))).map (fun s => (s.pc, s.sp)) =
      some (0x1234, 0x0102) := by decide

/-! ## The call (95_test_vectors.md L6, P6) -/

/-- L6: the largest overshoot, one step. -/
theorem test_execute_overshoots :
    execute 1 (preset 0xFFFC 0x0100 0 [(0xFFFC, 0x20), (0xFFFD, 0x34), (0xFFFE, 0x12)]) =
      .returned (preset 0x1234 0x0102 0
        [(0x0100, 0xFE), (0x0101, 0xFF), (0xFFFC, 0x20), (0xFFFD, 0x34), (0xFFFE, 0x12)]) 5 := by decide

/-- The state of P6, where the next step is fatal. -/
def p6 : State := preset 0x0200 0xFFFF 0 [(0x0200, 0x20), (0x0201, 0x34), (0x0202, 0x12)]

/-- The state a call from P6 leaves. -/
def p6Left : State := { p6 with pc := 0x0203, run := .faulted, faultAddr := some 65536 }

/-- P6: three cycles charged. -/
theorem test_execute_fatal : execute 10 p6 = .fatal 65536 p6Left 3 := by decide

/-! ## The memory array -/

/-- Writing what an unlisted address reads as removes the cell; a new cell goes to its place. -/
theorem test_write_canonical :
    Memory.write [(1, 0x11), (3, 0x33)] 1 0x00 = [(3, 0x33)] ∧
    Memory.write [(1, 0x11), (3, 0x33)] 2 0x22 = [(1, 0x11), (2, 0x22), (3, 0x33)] := by decide

/-- M4: a word write at FFFF raises `OutOfRange(65536)`. -/
theorem test_word_write_at_top : memWriteWord 0xFFFF 0x1234 State.reset = .error 65536 := rfl

/-! ## Witnesses: the hypotheses of each statement can be met together -/

/-- SP = 0xFFFE is the highest SP at which JSR_ABS completes (J7). -/
theorem witness_JsrAbsPushesAndJumps : ∃ s : State, s.sp ≠ 0xFFFF ∧ s.sp = 0xFFFE :=
  ⟨preset 0x0200 0xFFFE 0 [], by decide⟩

theorem witness_JsrAbsAtTopOfMemoryFaults : ∃ s : State, s.sp = 0xFFFF := ⟨p6, by decide⟩

theorem witness_LdaZpxWithZeroIndexIsLdaZp : ∃ s : State, s.x = 0 := ⟨State.reset, by decide⟩

theorem witness_RegisterFormsFrame_load :
    ∃ (i : Instr) (s t : State), exec i s = .next t ∧ (∀ w, i ≠ .jsrAbs w) ∧ (∀ op, i ≠ .unrecognized op) :=
  ⟨.ldaZpx 0xFF, preset 0x0200 0x0100 0x02 [(1, 0x7F)], _, rfl, by simp, by simp⟩

theorem witness_RegisterFormsFrame_unrecognized :
    ∃ (i : Instr) (s t : State), exec i s = .next t ∧ (∀ w, i ≠ .jsrAbs w) ∧ i = .unrecognized 0xEA :=
  ⟨.unrecognized 0xEA, State.reset, _, rfl, by simp, rfl⟩

/-- The two addresses next to the stored bytes are outside them. -/
theorem witness_JsrAbsFrame :
    ∃ (s t : State) (stored : Nat), exec (.jsrAbs 0x1234) s = .next t ∧ (s.fetched 3).stackAddr = stored ∧
      (0x00FF < stored ∨ stored + 2 ≤ 0x00FF) ∧ (0x0102 < stored ∨ stored + 2 ≤ 0x0102) :=
  ⟨State.reset, _, 0x0100, rfl, by decide, by decide, by decide⟩

theorem witness_JsrAbsInStackPageWritesOnlyThere_base : ∃ s : State, SpInStackPage s ∧ s.sp = 0x0100 :=
  ⟨State.reset, ⟨by decide, by decide⟩, by decide⟩

/-- J11: the last slot of the page. -/
theorem witness_JsrAbsInStackPageWritesOnlyThere_last : ∃ s : State, SpInStackPage s ∧ s.sp = 0x01FE :=
  ⟨preset 0x0200 0x01FE 0 [], ⟨by decide, by decide⟩, by decide⟩

theorem witness_NoStepWritesInertState : ∃ s t : State, stepWith opcodes s = .next t := ⟨State.reset, _, rfl⟩

theorem witness_OnlyJsrAbsWritesStackAndMemory :
    ∃ s t : State, stepWith opcodes s = .next t ∧ (t.sp ≠ s.sp ∨ ∃ addr, t.mem.read addr ≠ s.mem.read addr) :=
  ⟨State.reset.withFetchWord 24 0x123420, _, rfl, .inl (by decide)⟩

theorem witness_OneRecordPerUnrecognizedOpcode_none :
    ∃ s t : State, stepWith opcodes s = .next t ∧ lookup opcodes (s.mem.read s.pc.toNat) = none :=
  ⟨State.reset, _, rfl, by decide⟩

theorem witness_OneRecordPerUnrecognizedOpcode_some :
    ∃ s t : State, stepWith opcodes s = .next t ∧ (lookup opcodes (s.mem.read s.pc.toNat)).isSome = true :=
  ⟨State.reset.withFetchWord 16 0x42A9, _, rfl, by decide⟩

theorem witness_PcAdvancesByLengthOrJumps_jump : ∃ t : State, exec (.jsrAbs 0xFFFF) State.reset = .next t := ⟨_, rfl⟩
theorem witness_PcAdvancesByLengthOrJumps_advance : ∃ t : State, exec (.ldaZp 0xFF) State.reset = .next t := ⟨_, rfl⟩

theorem witness_CyclesMatchDispatchTable :
    ∃ t : State, opcodes.Distinct ∧ (Instr.jsrAbs 0x1234).wellFormedFor opcodes = true ∧
      exec (.jsrAbs 0x1234) State.reset = .next t :=
  ⟨_, by decide, by decide, rfl⟩

theorem witness_CyclesMatchDispatchTable_unrecognized :
    ∃ t : State, opcodes.Distinct ∧ (Instr.unrecognized 0xEA).wellFormedFor opcodes = true ∧
      exec (.unrecognized 0xEA) State.reset = .next t :=
  ⟨_, by decide, by decide, rfl⟩

theorem witness_FlagsMatchDispatchPolicy :
    ∃ t : State, opcodes.Distinct ∧ (Instr.ldaIm 0x80).wellFormedFor opcodes = true ∧
      exec (.ldaIm 0x80) State.reset = .next t :=
  ⟨_, by decide, by decide, rfl⟩

theorem witness_StepRunsDecodedInstruction :
    ∃ (s : State) (i : Instr) (rest : List Byte), s.run = .running ∧
      decode [s.mem.read s.pc.toNat, s.mem.read (s.pc + 1).toNat, s.mem.read (s.pc + 2).toNat] = .ok (i, rest) :=
  ⟨State.reset.withFetchWord 24 0x123420, _, _, rfl, rfl⟩

/-- An instruction that straddles the wrap of PC (J5). -/
theorem witness_StepRunsEncodedInstruction :
    opcodes.Distinct ∧ (Instr.jsrAbs 0x1234).wellFormedFor opcodes = true ∧
      ∃ s : State, s.run = .running ∧ s.pc = 0xFFFE ∧
        ∀ j, j < (Instr.jsrAbs 0x1234).length →
          (encodeWith opcodes (.jsrAbs 0x1234))[j]? = some (s.mem.read (s.pc + BitVec.ofNat 16 j).toNat) :=
  ⟨by decide, by decide, preset 0xFFFE 0x0100 0 [(0x0000, 0x12), (0xFFFE, 0x20), (0xFFFF, 0x34)], rfl, rfl, by decide⟩

theorem witness_StepRefusedOutsideRunning :
    ∃ s t : State, s.run = .idle ∧ t.run = .faulted := ⟨{ State.reset with run := .idle }, p6Left, rfl, rfl⟩

theorem witness_StepMatchesPseudocode : ∃ s : State, s.run = .running := ⟨p6, rfl⟩

theorem witness_StepIgnoresCycleCounter : ∃ s t : State, stepWith opcodes s = .next t := ⟨State.reset, _, rfl⟩

theorem witness_FetchSeesPushedBytes :
    ∃ s : State, s.sp ≠ 0xFFFF ∧ (0x0100 : Word) = s.sp ∧ (0x0101 : Word) = s.sp + 1 := ⟨State.reset, by decide⟩

theorem witness_FetchWordIsExecuted : ∃ i, decodeTableWord 24 0x123420 = some i := ⟨_, rfl⟩

theorem witness_DecodeInvertsEncode :
    opcodes.Distinct ∧ (Instr.jsrAbs 0xFFFF).wellFormedFor opcodes = true ∧
      (Instr.unrecognized 0x00).wellFormedFor opcodes = true := by decide

theorem witness_EncodeInvertsDecode : ∃ i rest, decodeWith opcodes [0xB5, 0x80, 0x20] = .ok (i, rest) := ⟨_, _, rfl⟩

/-- The three lengths, each with an opcode byte. -/
theorem witness_LengthDecidedByOpcode :
    opcodes.Distinct ∧ (0xB5 : Byte) = opcodes.ldaZpx ∧ (0x20 : Byte) = opcodes.jsrAbs ∧
      (Instr.unrecognized 0xEA).wellFormedFor opcodes = true := by decide

theorem witness_DispatchTableEntries :
    opcodes.Distinct ∧ (0x00 : Byte) ≠ opcodes.ldaIm ∧ (0x00 : Byte) ≠ opcodes.ldaZp ∧ (0x00 : Byte) ≠ opcodes.ldaZpx ∧
      (0x00 : Byte) ≠ opcodes.jsrAbs := by decide

theorem witness_AbsoluteOperandLowByteFirst : opcodes.Distinct := by decide

/-- A value at each end of the three ranges. -/
theorem witness_SetZNRule :
    (0x00 : Byte).toNat = 0 ∧ 0x01 ≤ (0x01 : Byte).toNat ∧ (0x7F : Byte).toNat ≤ 0x7F ∧ 0x80 ≤ (0x80 : Byte).toNat ∧
      0x80 ≤ (0xFF : Byte).toNat := by decide

theorem witness_StepKeepsFlagsAgree : ∃ s t : State, FlagsAgree s ∧ stepWith opcodes s = .next t :=
  ⟨{ State.reset with p := { Flags.clear with z := true } }, _, ⟨rfl, rfl⟩, rfl⟩

theorem witness_PackUnpackInverse : statusLayout.Distinct := by decide

/-- 65535 is the last address inside the array, 65536 the first outside. -/
theorem witness_MemReadRule : (65535 < 65536) ∧ (65536 ≤ 65536) := by decide
theorem witness_MemWriteRule : (65535 < 65536) ∧ (65536 ≤ 65536) := by decide
theorem witness_MemWriteWordRule : (65534 < 65535) ∧ (65535 = 65535) ∧ (65536 ≤ 65536) := by decide
theorem witness_WordWriteReadsBack : 65534 < 65535 := by decide

/-- A program that ends at the last byte of the array, with a neighbour below it. -/
theorem witness_HostLoadPlacesBytes :
    ∃ (bytes : List Byte) (addr other : Nat), addr + bytes.length ≤ 65536 ∧ 1 < bytes.length ∧ other < addr :=
  ⟨[0xA9, 0x80], 0xFFFE, 0xFFFD, by decide, by decide, by decide⟩

theorem witness_StepKeepsMemoryCanonical_next :
    ∃ s t : State, s.mem.wf ∧ stepWith opcodes s = .next t :=
  ⟨State.reset.withFetchWord 24 0x123420, _, by decide, rfl⟩

theorem witness_StepKeepsMemoryCanonical_fault :
    ∃ (s : State) (addr : Nat) (left : State), s.mem.wf ∧ stepWith opcodes s = .fault (.outOfRange addr left) :=
  ⟨p6, _, _, by decide, rfl⟩

theorem witness_CanonicalMemoryIsUnique :
    ∃ m n : Memory, m.wf ∧ n.wf ∧ ∀ addr, m.read addr = n.read addr :=
  ⟨[(1, 0x11)], [(1, 0x11)], by decide, by decide, fun _ => rfl⟩

theorem witness_StepKeepsReachInv : ∃ s t : State, ReachInv s ∧ stepWith opcodes s = .next t :=
  ⟨State.reset.withFetchWord 24 0x123420, _,
    ⟨rfl, rfl, by decide, ⟨rfl, rfl, rfl, rfl, rfl, rfl, rfl, rfl⟩, rfl⟩, rfl⟩

theorem witness_FaultExactlyJsrAbsAtTop :
    ∃ s : State, (∃ f, stepWith opcodes s = .fault f) ∧ s.run = .running ∧ s.sp = 0xFFFF ∧
      ∃ e, lookup opcodes (s.mem.read s.pc.toNat) = some e ∧ e.handler = .jsrAbs :=
  ⟨p6, ⟨_, rfl⟩, rfl, rfl, _, rfl, rfl⟩

theorem witness_FaultAddressHeldInFaulted_next : ∃ s t : State, FaultAddrAgrees s ∧ stepWith opcodes s = .next t :=
  ⟨State.reset, _, by unfold FaultAddrAgrees; decide, rfl⟩

theorem witness_FaultAddressHeldInFaulted_fault :
    ∃ (s : State) (addr : Nat) (left : State), FaultAddrAgrees s ∧ stepWith opcodes s = .fault (.outOfRange addr left) :=
  ⟨p6, _, _, by unfold FaultAddrAgrees; decide, rfl⟩

theorem witness_ReachableMachineNeverFaults : ∃ s : State, HostReachable opcodes s :=
  ⟨_, HostReachable.reset State.reset⟩

theorem witness_ExecuteZeroDoesNothing : ∃ s : State, s.run = .running := ⟨State.reset, rfl⟩

theorem witness_ExecuteRefusedOutsideRunning :
    ∃ s t : State, s.run = .idle ∧ t.run = .faulted := ⟨{ State.reset with run := .idle }, p6Left, rfl, rfl⟩

theorem witness_ExecuteRunsUntilBudgetSpent : ∃ t c, executeWith opcodes 3 State.reset = .returned t c := ⟨_, _, rfl⟩

theorem witness_ExecuteOvershootAtMostFour :
    ∃ t c, executeWith opcodes 1 (State.reset.withFetchWord 24 0x123420) = .returned t c := ⟨_, _, rfl⟩

theorem witness_ExecuteResumesWhereItPaused :
    ∃ s1 s2 c1 c2, executeWith opcodes 1 (State.reset.withFetchWord 16 0x42A9) = .returned s1 c1 ∧
      executeWith opcodes 1 s1 = .returned s2 c2 := ⟨_, _, _, _, rfl, rfl⟩

theorem witness_ExecuteIgnoresStaleCounter : ∃ t c, executeWith opcodes 2 State.reset = .returned t c := ⟨_, _, rfl⟩

theorem witness_FatalCallLeavesFaulted : ∃ addr left c, executeWith opcodes 10 p6 = .fatal addr left c :=
  ⟨_, _, _, rfl⟩

theorem witness_EmptyMemoryRunReportsEveryByte :
    lookup opcodes 0x00 = none ∧ State.reset.run = .running ∧ ∀ addr, State.reset.mem.read addr = 0x00 :=
  ⟨by decide, rfl, fun _ => rfl⟩

end Sys2Proof.Tests
end

section
/-! The word store's frame, the whole effect of JSR_ABS below the top of memory, and the statement about the stack page
(U6). -/

namespace Sys2Proof.Machine

/-- Storing two bytes in a row leaves every address outside the two as it was (R34). -/
theorem Memory.read_write_pair_outside (m : Memory) {addr other : Nat} (lo hi : Byte)
    (h : other < addr ∨ addr + 2 ≤ other) : ((m.write addr lo).write (addr + 1) hi).read other = m.read other := by
  have hlo : other ≠ addr := by omega
  have hhi : other ≠ addr + 1 := by omega
  rw [Memory.read_write_other _ _ hhi, Memory.read_write_other _ _ hlo]

/-- The return address of JSR_ABS is the address of its own last byte (R92). -/
theorem returnAddress_fetched_three (s : State) : returnAddress (s.fetched 3) = s.pc + 2 := by
  simp only [returnAddress, State.fetched_pc]
  bv_omega

/-- R90: below the last address of memory JSR_ABS completes; its whole next state. -/
theorem exec_jsrAbs_inside (target : Word) {s : State} (h : s.sp.toNat < 65535) :
    exec (.jsrAbs target) s = .next { s with
      pc := target
      sp := s.sp + 2
      mem := (s.mem.write s.sp.toNat (lowByte (s.pc + 2))).write (s.sp.toNat + 1) (highByte (s.pc + 2))
      cyc := s.cyc - 5 } := by
  have hpush := pushWord_inside (s := s.fetched 3) (s.pc + 2) h
  have hcyc : s.cyc - 3 - 2 = s.cyc - 5 := by omega
  simp only [exec, execJsrAbs, returnAddress_fetched_three, hpush]
  simp [State.jump, costWriteWord, hcyc]

/-- Settles O12: both bytes pushed from a slot of the stack page lie in 0x0100..0x01FF. -/
theorem jsrAbsInStackPageWritesOnlyThere : Obligations.JsrAbsInStackPageWritesOnlyThere := by
  rintro target s ⟨hbase, hlast⟩
  refine ⟨_, exec_jsrAbs_inside target (by omega), fun addr houtside => ?_⟩
  have hapart : addr < s.sp.toNat ∨ s.sp.toNat + 2 ≤ addr := by omega
  exact Memory.read_write_pair_outside s.mem _ _ hapart

end Sys2Proof.Machine
end

section
/-! What an instruction that completes leaves, said once (R72, R80 to R83, R90), and the statements about registers,
flags and reset that follow from it. -/

namespace Sys2Proof.Machine

/-! ## The whole effect of each instruction -/

theorem State.charge_charge (j k : Nat) (s : State) : (s.charge j).charge k = s.charge (j + k) := by
  simp only [State.charge, State.mk.injEq, true_and, and_true]
  omega

theorem State.charge_zero (s : State) : s.charge 0 = s := by
  simp [State.charge]

theorem exec_ldaIm (d8 : Byte) (s : State) : exec (.ldaIm d8) s = .next ((s.fetched 2).loadA d8) := rfl

theorem exec_ldaZp (d8 : Byte) (s : State) :
    exec (.ldaZp d8) s = .next (((s.fetched 2).charge 1).loadA (s.mem.read d8.toNat)) := by
  calc exec (.ldaZp d8) s
    _ = loadFrom (zeroPage d8).toNat (s.fetched 2) := rfl
    _ = .next (((s.fetched 2).charge costRead).loadA (s.mem.read (zeroPage d8).toNat)) := loadFrom_word _ _
    _ = .next (((s.fetched 2).charge 1).loadA (s.mem.read d8.toNat)) := by rw [zeroPage_toNat, costRead]

theorem exec_ldaZpx (d8 : Byte) (s : State) :
    exec (.ldaZpx d8) s =
      .next (((s.fetched 2).charge 2).loadA (s.mem.read ((d8.toNat + s.x.toNat) % 256))) := by
  calc exec (.ldaZpx d8) s
    _ = loadFrom (zeroPageX d8 s.x).toNat ((s.fetched 2).charge costIndex) := rfl
    _ = .next ((((s.fetched 2).charge costIndex).charge costRead).loadA
          (s.mem.read (zeroPageX d8 s.x).toNat)) := loadFrom_word _ _
    _ = .next (((s.fetched 2).charge 2).loadA (s.mem.read ((d8.toNat + s.x.toNat) % 256))) := by
      rw [State.charge_charge, zeroPageX_toNat, costIndex, costRead]

theorem exec_unrecognized (op : Byte) (s : State) :
    exec (.unrecognized op) s = .next ((s.fetched 1).emitDiag op s.pc) := rfl

/-- R90, R101: at the last address of memory JSR_ABS keeps its three fetches and raises the condition. -/
theorem exec_jsrAbs_outside (target : Word) {s : State} (h : s.sp.toNat = 65535) :
    exec (.jsrAbs target) s = raiseOutOfRange 65536 (s.fetched 3) := by
  have hpush := pushWord_outside (s := s.fetched 3) (returnAddress (s.fetched 3)) h
  simp only [exec, execJsrAbs, hpush]

/-- What JSR_ABS leaves when it completes: the two bytes pushed at SP, SP past them, PC at the target (R90). -/
@[simps] def State.jsrAbsNext (target : Word) (s : State) : State :=
  { s with
    pc := target
    sp := s.sp + 2
    mem := (s.mem.write s.sp.toNat (lowByte (s.pc + 2))).write (s.sp.toNat + 1) (highByte (s.pc + 2))
    cyc := s.cyc - 5 }

/-- JSR_ABS completes only below the last address of memory. -/
theorem exec_jsrAbs_next {target : Word} {s t : State} (h : exec (.jsrAbs target) s = .next t) :
    s.sp.toNat < 65535 ∧ t = s.jsrAbsNext target := by
  have hword : s.sp.toNat < 65536 := s.sp.isLt
  by_cases htop : s.sp.toNat = 65535
  · rw [exec_jsrAbs_outside target htop] at h
    cases h
  · have hinside : s.sp.toNat < 65535 := by omega
    rw [exec_jsrAbs_inside target hinside] at h
    cases h
    exact ⟨hinside, rfl⟩

/-- What an instruction that completes leaves: a load writes A and its flags, JSR_ABS pushes and jumps, an unrecognized
opcode is reported. -/
theorem exec_next_cases {i : Instr} {s t : State} (h : exec i s = .next t) :
    (∃ c v, t = ((s.fetched 2).charge c).loadA v) ∨
    (∃ target, i = .jsrAbs target ∧ s.sp.toNat < 65535 ∧ t = s.jsrAbsNext target) ∨
    (∃ op, i = .unrecognized op ∧ t = (s.fetched 1).emitDiag op s.pc) := by
  cases i with
  | ldaIm d8 =>
    rw [exec_ldaIm, ← State.charge_zero (s.fetched 2)] at h
    cases h
    exact .inl ⟨_, _, rfl⟩
  | ldaZp d8 =>
    rw [exec_ldaZp] at h
    cases h
    exact .inl ⟨_, _, rfl⟩
  | ldaZpx d8 =>
    rw [exec_ldaZpx] at h
    cases h
    exact .inl ⟨_, _, rfl⟩
  | jsrAbs target =>
    obtain ⟨hinside, ht⟩ := exec_jsrAbs_next h
    exact .inr (.inl ⟨target, rfl, hinside, ht⟩)
  | unrecognized op =>
    rw [exec_unrecognized] at h
    cases h
    exact .inr (.inr ⟨op, rfl, rfl⟩)

/-! ## What no step writes -/

/-- Settles O13: a load writes A, Z and N alone of these registers and flags, the other two instructions none. -/
theorem noStepWritesInertState : Obligations.NoStepWritesInertState := by
  intro k s t h
  obtain ⟨-, hexec⟩ := stepWith_next h
  obtain ⟨c, v, rfl⟩ | ⟨target, -, -, rfl⟩ | ⟨op, -, rfl⟩ := exec_next_cases hexec
  · simp
  · simp
  · simp

theorem stepWith_keeps_inert {k : OpcodeMap} {s t : State} (hinert : Inert s) (h : stepWith k s = .next t) :
    Inert t := by
  obtain ⟨hx, hy, hc, hi, hd, hb, hv, hu, -⟩ := noStepWritesInertState k s t h
  simpa only [Inert, hx, hy, hc, hi, hd, hb, hv, hu] using hinert

theorem stepWith_keeps_faultAddr {k : OpcodeMap} {s t : State} (h : stepWith k s = .next t) :
    t.faultAddr = s.faultAddr := by
  obtain ⟨-, hexec⟩ := stepWith_next h
  obtain ⟨c, v, rfl⟩ | ⟨target, -, -, rfl⟩ | ⟨op, -, rfl⟩ := exec_next_cases hexec
  · simp
  · simp
  · simp

/-! ## SP and memory -/

theorem exec_keeps_sp_mem {i : Instr} {s t : State} (h : exec i s = .next t) (hi : ∀ target, i ≠ .jsrAbs target) :
    t.sp = s.sp ∧ t.mem = s.mem := by
  obtain ⟨c, v, rfl⟩ | ⟨target, hjsr, -, -⟩ | ⟨op, -, rfl⟩ := exec_next_cases h
  · simp
  · exact absurd hjsr (hi target)
  · simp

/-- Only a hit with the handler of JSR_ABS makes the fetch give a JSR_ABS (R56). -/
theorem lookup_of_fetchInstr_jsrAbs {k : OpcodeMap} {s : State} {target : Word}
    (h : fetchInstr k s = .jsrAbs target) :
    ∃ e, lookup k (s.mem.read s.pc.toNat) = some e ∧ e.handler = .jsrAbs := by
  cases hlookup : lookup k (s.mem.read s.pc.toNat) with
  | none =>
    rw [fetchInstr_of_miss hlookup] at h
    cases h
  | some e =>
    rw [fetchInstr_of_lookup hlookup] at h
    refine ⟨e, rfl, ?_⟩
    cases hhandler : e.handler with
    | jsrAbs => rfl
    | ldaIm => simp [assemble, hhandler] at h
    | ldaZp => simp [assemble, hhandler] at h
    | ldaZpx => simp [assemble, hhandler] at h

/-- Settles O14: an instruction that is no JSR_ABS keeps SP and the list of cells. -/
theorem onlyJsrAbsWritesStackAndMemory : Obligations.OnlyJsrAbsWritesStackAndMemory := by
  intro k s t h hchange
  obtain ⟨-, hexec⟩ := stepWith_next h
  by_cases hjsr : ∃ target, fetchInstr k s = .jsrAbs target
  · obtain ⟨target, hfetch⟩ := hjsr
    exact lookup_of_fetchInstr_jsrAbs hfetch
  · obtain ⟨hsp, hmem⟩ := exec_keeps_sp_mem hexec (not_exists.mp hjsr)
    simp [hsp, hmem] at hchange

/-- A push keeps the parity of SP, the wrap modulo 65536 included (R102). -/
theorem stepWith_keeps_spEven {k : OpcodeMap} {s t : State} (heven : SpEven s) (h : stepWith k s = .next t) :
    SpEven t := by
  obtain ⟨-, hexec⟩ := stepWith_next h
  obtain ⟨c, v, rfl⟩ | ⟨target, -, -, rfl⟩ | ⟨op, -, rfl⟩ := exec_next_cases hexec
  · exact heven
  · simp only [SpEven, State.jsrAbsNext_sp, BitVec.toNat_add, BitVec.reduceToNat] at heven ⊢
    omega
  · exact heven

/-- Both bytes JSR_ABS stores lie inside the array, so the canonical form is kept (R34, log entry 14). -/
theorem stepWith_keeps_wf {k : OpcodeMap} {s t : State} (hwf : s.mem.wf) (h : stepWith k s = .next t) :
    t.mem.wf := by
  obtain ⟨-, hexec⟩ := stepWith_next h
  obtain ⟨c, v, rfl⟩ | ⟨target, -, hinside, rfl⟩ | ⟨op, -, rfl⟩ := exec_next_cases hexec
  · exact hwf
  · have hlow : s.sp.toNat < memSize := s.sp.isLt
    have hhigh : s.sp.toNat + 1 < memSize := Nat.succ_lt_succ hinside
    exact Memory.wf_write _ _ _ (Memory.wf_write _ _ _ hwf hlow) hhigh
  · exact hwf

/-! ## The invariant of reached states (R102) -/

/-- Settles O49: each part of the invariant is kept on its own. -/
theorem stepKeepsReachInv : Obligations.StepKeepsReachInv := by
  rintro k s t ⟨hrun, hfault, hwf, hinert, heven⟩ h
  obtain ⟨-, -, -, -, -, -, -, -, hrun'⟩ := noStepWritesInertState k s t h
  exact ⟨hrun'.trans hrun, (stepWith_keeps_faultAddr h).trans hfault, stepWith_keeps_wf hwf h,
    stepWith_keeps_inert hinert h, stepWith_keeps_spEven heven h⟩

theorem reachInv_hostReset (s : State) : ReachInv s.hostReset := by
  refine ⟨rfl, rfl, Memory.wf_nil, ?inert, ?even⟩
  case inert => simp [Inert]
  case even => simp [SpEven, resetSp]

/-- Settles O48: the state after reset is what the reset operation makes of itself. -/
theorem resetEstablishesReachInv : Obligations.ResetEstablishesReachInv :=
  ⟨reachInv_hostReset State.reset, reachInv_hostReset⟩

/-- Settles O2: each value is a field of `State.reset`, and its memory lists no cell. -/
theorem resetStateValues : Obligations.ResetStateValues := by
  simp [Obligations.ResetStateValues, State.reset, resetPc, resetSp]

/-! ## PC -/

/-- Settles O16: a load fetches two bytes, an unrecognized opcode one, and JSR_ABS ends in its jump. -/
theorem pcAdvancesByLengthOrJumps : Obligations.PcAdvancesByLengthOrJumps := by
  intro i s t h
  cases i with
  | ldaIm d8 =>
    rw [exec_ldaIm] at h
    cases h
    rfl
  | ldaZp d8 =>
    rw [exec_ldaZp] at h
    cases h
    rfl
  | ldaZpx d8 =>
    rw [exec_ldaZpx] at h
    cases h
    rfl
  | jsrAbs target =>
    obtain ⟨-, rfl⟩ := exec_jsrAbs_next h
    rfl
  | unrecognized op =>
    rw [exec_unrecognized] at h
    cases h
    rfl

/-! ## The flags (R18, R83) -/

theorem flagsAgree_loadA (v : Byte) (s : State) : FlagsAgree (s.loadA v) := ⟨rfl, rfl⟩

/-- Settles O34: every load ends in `State.loadA`; after reset Z is clear although A is 0. -/
theorem loadsMakeFlagsAgree : Obligations.LoadsMakeFlagsAgree := by
  refine ⟨fun d8 s => ⟨?im, ?zp, ?zpx⟩, ?reset⟩
  case im => exact ⟨_, exec_ldaIm d8 s, flagsAgree_loadA _ _⟩
  case zp => exact ⟨_, exec_ldaZp d8 s, flagsAgree_loadA _ _⟩
  case zpx => exact ⟨_, exec_ldaZpx d8 s, flagsAgree_loadA _ _⟩
  case reset =>
    rintro ⟨hz, -⟩
    simp [State.reset] at hz

/-- Settles O35: a load makes the flags agree, the other two instructions write neither A nor a flag. -/
theorem stepKeepsFlagsAgree : Obligations.StepKeepsFlagsAgree := by
  intro k s t hagree h
  obtain ⟨-, hexec⟩ := stepWith_next h
  obtain ⟨c, v, rfl⟩ | ⟨target, -, -, rfl⟩ | ⟨op, -, rfl⟩ := exec_next_cases hexec
  · exact flagsAgree_loadA _ _
  · exact hagree
  · exact hagree

end Sys2Proof.Machine
end

section
/-! The packed status byte (R19): bit by bit, under any layout that gives each flag a position of its own. -/

namespace Sys2Proof.Machine

/-- `bitAt` holds its bit at its position and 0 at every other. -/
theorem getLsbD_bitAt (bit : Bool) (at_ j : Fin 8) : (bitAt bit at_).getLsbD j = (bit && decide (j = at_)) := by
  decide +revert

/-- A bit of the packed byte is the flag whose position it is. -/
theorem getLsbD_packWith (l : StatusLayout) (p : Flags) (j : Fin 8) :
    (p.packWith l).getLsbD j =
      (p.c && decide (j = l.c) || p.z && decide (j = l.z) || p.i && decide (j = l.i) || p.d && decide (j = l.d) ||
        p.b && decide (j = l.b) || p.u && decide (j = l.u) || p.v && decide (j = l.v) || p.n && decide (j = l.n)) := by
  simp only [Flags.packWith, BitVec.getLsbD_or, getLsbD_bitAt]

theorem unpackWith_packWith {l : StatusLayout} (hl : l.Distinct) (p : Flags) :
    Flags.unpackWith l (p.packWith l) = p := by
  have hrev := List.nodup_reverse.mpr hl
  simp only [List.reverse_cons, List.reverse_nil, List.nil_append, List.cons_append, StatusLayout.Distinct,
    List.nodup_cons, List.mem_cons, List.not_mem_nil, not_or, or_false] at hl hrev
  simp only [Flags.unpackWith, getLsbD_packWith]
  simp [hl, hrev]

/-- The positions of the eight flags, in the order of `StatusLayout.Distinct`. -/
def flagPositions (l : StatusLayout) : List (Fin 8) := [l.c, l.z, l.i, l.d, l.b, l.u, l.v, l.n]

/-- Eight positions of their own are all the positions of a byte. -/
theorem mem_flagPositions {l : StatusLayout} (hl : l.Distinct) (j : Fin 8) : j ∈ flagPositions l := by
  have hcard : (flagPositions l).toFinset.card = 8 := List.toFinset_card_of_nodup hl
  have huniv : (flagPositions l).toFinset = Finset.univ := Finset.eq_univ_of_card _ hcard
  exact List.mem_toFinset.mp (huniv ▸ Finset.mem_univ j)

/-- Bytes that unpack alike agree at each flag's position, which is at every bit. -/
theorem unpackWith_injective {l : StatusLayout} (hl : l.Distinct) : Function.Injective (Flags.unpackWith l) := by
  intro w w' h
  have hbits : ∀ j ∈ flagPositions l, w.getLsbD j = w'.getLsbD j := by
    simpa [flagPositions, Flags.unpackWith] using h
  exact BitVec.eq_of_getLsbD_eq fun j hj => hbits ⟨j, hj⟩ (mem_flagPositions hl _)

/-- Settles O36: `packWith` is a right inverse of `unpackWith`, which is injective. -/
theorem packUnpackInverse : Obligations.PackUnpackInverse := by
  intro l p w hl
  have hpack := unpackWith_packWith hl
  exact ⟨hpack p, unpackWith_injective hl (hpack (Flags.unpackWith l w))⟩

/-- Settles O37: what unpacking the packed byte gives, flag by flag, under the default layout. -/
theorem statusByteLayout : Obligations.StatusByteLayout := by
  refine ⟨fun s => ?_, by decide⟩
  have hlayout : statusLayout.Distinct := by decide
  have hunpack := unpackWith_packWith hlayout s.p
  exact ⟨congrArg Flags.n hunpack, congrArg Flags.v hunpack, congrArg Flags.u hunpack, congrArg Flags.b hunpack,
    congrArg Flags.d hunpack, congrArg Flags.i hunpack, congrArg Flags.z hunpack, congrArg Flags.c hunpack⟩

end Sys2Proof.Machine
end

section
/-! Canonical memory: its cells are what it reads as (R23, log entry 14). -/

namespace Sys2Proof.Machine

/-- In a canonical memory the cells are exactly the addresses that read as listed, with what they read as. -/
theorem Memory.mem_iff_read {m : Memory} (hm : m.wf) (c : Host.Cell) :
    c ∈ m ↔ m.read c.1 = c.2 ∧ c.2 ≠ Memory.unlisted := by
  induction m with
  | nil => simpa [Memory.unlisted] using Eq.symm
  | cons d rest ih =>
    obtain ⟨hs, hb⟩ := hm
    obtain ⟨hhead, htail⟩ := List.pairwise_cons.mp hs
    obtain ⟨⟨-, hd⟩, hrest⟩ := List.forall_mem_cons.mp hb
    have ih := ih ⟨htail, hrest⟩
    by_cases haddr : d.1 = c.1
    · have hnotin : c ∉ rest := fun hc => (hhead c hc).ne haddr
      have hcd : c = d ↔ d.2 = c.2 := by rw [Prod.ext_iff, haddr, eq_self, true_and, eq_comm]
      simp only [List.mem_cons, hnotin, or_false, Memory.read, haddr, if_true, hcd]
      exact ⟨fun h => ⟨h, h ▸ hd⟩, And.left⟩
    · have hne : c ≠ d := fun h => haddr (h ▸ rfl)
      simp only [List.mem_cons, hne, false_or, Memory.read, haddr, if_false, ih]

/-- Settles O47: memories that read alike have the same cells, and rising addresses fix their order. -/
theorem canonicalMemoryIsUnique : Obligations.CanonicalMemoryIsUnique := by
  intro m n hm hn hread
  have hcells (c : Host.Cell) : c ∈ m ↔ c ∈ n := by
    rw [Memory.mem_iff_read hm, Memory.mem_iff_read hn, hread]
  exact List.Pairwise.eq_of_mem_iff (r := InvImage (· < ·) Prod.fst) hm.1 hn.1 hcells

end Sys2Proof.Machine
end

section
/-! The call `execute`: when it returns, and with what (R65, R66). -/

namespace Sys2Proof.Machine

/-- A call returns exactly when it is made in Running and its loop ends in a state; what it hands back. -/
theorem executeWith_eq_returned_iff {k : OpcodeMap} {budget : Nat} {s t : State} {consumed : Int} :
    executeWith k budget s = .returned t consumed ↔
      s.run = .running ∧ ∃ u, runLoop k budget { s with cyc := budget } = .next u ∧
        t = { u with cyc := s.cyc } ∧ consumed = budget - u.cyc := by
  unfold executeWith
  generalize runLoop k budget { s with cyc := budget } = out
  cases hrun : s.run with
  | idle => simp
  | faulted => simp
  | running =>
    cases out with
    | next u => simp [eq_comm]
    | fault f =>
      obtain ⟨addr, left⟩ := f
      simp
    | refused r => simp

/-- Settles O58: the loop starts from the budget, whatever the cell held. -/
theorem executeIgnoresStaleCounter : Obligations.ExecuteIgnoresStaleCounter := by
  intro k budget s t c consumed h
  obtain ⟨hrun, u, hloop, rfl, rfl⟩ := executeWith_eq_returned_iff.mp h
  exact executeWith_eq_returned_iff.mpr ⟨hrun, u, hloop, rfl, rfl⟩

end Sys2Proof.Machine
end

section
/-! The memory interface (R32 to R36): where each operation answers, what it leaves, and the statements about it. -/

namespace Sys2Proof.Machine

/-! ## One byte (R32, R33, R35) -/

theorem memWrite_inside {addr : Nat} (v : Byte) (s : State) (h : addr < 65536) :
    memWrite addr v s = .ok { s with mem := s.mem.write addr v } := by
  have hbound : ¬ memSize ≤ addr := Nat.not_le.mpr h
  simp only [memWrite, hbound, if_false]

theorem memWrite_outside {addr : Nat} (v : Byte) (s : State) (h : 65536 ≤ addr) : memWrite addr v s = .error addr := by
  simp [memWrite, h]

/-- Settles O38: the bound is tested first, and reading is the memory's own. -/
theorem memReadRule : Obligations.MemReadRule :=
  fun _ s => ⟨memRead_outside s, memRead_inside s⟩

/-- Settles O39: the memory left is the old one with the byte written. -/
theorem memWriteRule : Obligations.MemWriteRule := by
  intro addr v s
  refine ⟨memWrite_outside v s, fun hinside => ⟨s.mem.write addr v, memWrite_inside v s hinside, ?_, ?_⟩⟩
  · exact Memory.read_write_same s.mem addr v
  · exact fun _ hother => Memory.read_write_other s.mem v hother

/-- Settles O42: the memory left is the one that lists no cell. -/
theorem initializeZeroesMemory : Obligations.InitializeZeroesMemory :=
  fun _ => ⟨[], rfl, Memory.read_nil⟩

/-! ## A word (R34, R36) -/

/-- What two bytes stored in a row read as, at every address. -/
theorem Memory.read_write_pair (m : Memory) (addr other : Nat) (lo hi : Byte) :
    ((m.write addr lo).write (addr + 1) hi).read other =
      if other = addr then lo else if other = addr + 1 then hi else m.read other := by
  by_cases hlo : other = addr
  · simp [Memory.read_write, hlo]
  · simp [Memory.read_write, hlo]

theorem memWriteWord_inside {addr : Nat} (v : Word) (s : State) (h : addr < 65535) :
    memWriteWord addr v s = .ok { s with
      mem := (s.mem.write addr (lowByte v)).write (addr + 1) (highByte v)
      cyc := s.cyc - 2 } := by
  have hlow : ¬ memSize ≤ addr := by rw [memSize_eq]; omega
  have hhigh : ¬ memSize ≤ addr + 1 := by rw [memSize_eq]; omega
  simp only [memWriteWord, hlow, hhigh, if_false]
  rfl

theorem memWriteWord_outside {addr : Nat} (v : Word) (s : State) (h : 65536 ≤ addr) :
    memWriteWord addr v s = .error addr := by
  simp [memWriteWord, h]

/-- The second byte of a word at the last address of the array lies outside it. -/
theorem memWriteWord_last (v : Word) (s : State) : memWriteWord 65535 v s = .error 65536 := rfl

theorem memReadWord_inside {addr : Nat} (s : State) (h : addr < 65535) :
    memReadWord addr s = .ok (wordOf (s.mem.read addr) (s.mem.read (addr + 1))) := by
  have hlow : ¬ memSize ≤ addr := by rw [memSize_eq]; omega
  have hhigh : ¬ memSize ≤ addr + 1 := by rw [memSize_eq]; omega
  simp only [memReadWord, hlow, hhigh, if_false]

/-- Settles O40: both bounds are tested before either byte is stored. -/
theorem memWriteWordRule : Obligations.MemWriteWordRule := by
  intro addr v s
  refine ⟨memWriteWord_outside v s, ?last, fun hinside => ⟨_, memWriteWord_inside v s hinside, ?low, ?high, ?frame⟩⟩
  case last =>
    rintro rfl
    exact memWriteWord_last v s
  case low => simp [Memory.read_write_pair]
  case high => simp
  case frame =>
    intro other hlow hhigh
    simp [Memory.read_write_pair, hlow, hhigh]

/-- Settles O41: the two bytes read are the halves of the word, and the halves make up the word. -/
theorem wordWriteReadsBack : Obligations.WordWriteReadsBack := by
  intro addr v s hinside
  have hlow : lowByte v = BitVec.ofNat 8 (v.toNat % 256) := by
    rw [← lowByte_toNat, BitVec.ofNat_toNat, BitVec.setWidth_eq]
  have hhigh : highByte v = BitVec.ofNat 8 (v.toNat / 256) := by
    rw [← highByte_toNat, BitVec.ofNat_toNat, BitVec.setWidth_eq]
  refine ⟨_, memWriteWord_inside v s hinside, ?word, ?low, ?high⟩
  case word =>
    rw [memReadWord_inside _ hinside]
    simp [Memory.read_write_pair, wordOf_lowByte_highByte]
  case low =>
    rw [memRead_inside _ (by omega), ← hlow]
    simp [Memory.read_write_pair]
  case high =>
    rw [memRead_inside _ (by omega), ← hhigh]
    simp

/-! ## The host's loading of a program (R43, R123) -/

theorem hostLoad_cons_inside {addr : Nat} (v : Byte) (rest : List Byte) (s : State) (h : addr < 65536) :
    hostLoad addr (v :: rest) s = hostLoad (addr + 1) rest { s with mem := s.mem.write addr v } := by
  simp only [hostLoad, hostWrite, memWrite_inside v s h]

/-- Settles O44, by induction on the bytes: the later bytes lie above the first, so loading them keeps it. -/
theorem hostLoadPlacesBytes : Obligations.HostLoadPlacesBytes := by
  intro bytes
  induction bytes with
  | nil => exact fun addr s _ => ⟨s.mem, rfl, nofun, fun _ _ => rfl⟩
  | cons v rest ih =>
    intro addr s hfits
    rw [List.length_cons] at hfits
    obtain ⟨m, hload, hplaced, hframe⟩ := ih (addr + 1) { s with mem := s.mem.write addr v } (by omega)
    refine ⟨m, (hostLoad_cons_inside v rest s (by omega)).trans hload, ?placed, ?frame⟩
    case placed =>
      rintro (_ | j) hj
      · exact (hframe addr (by omega)).trans (Memory.read_write_same s.mem addr v)
      · have haddr : addr + (j + 1) = addr + 1 + j := by omega
        rw [haddr]
        exact hplaced j (Nat.lt_of_succ_lt_succ hj)
    case frame =>
      intro other hother
      rw [List.length_cons] at hother
      exact (hframe other (by omega)).trans (Memory.read_write_other s.mem v (by omega))

end Sys2Proof.Machine
end

section
/-! Memory under the step: the state a fault leaves, the canonical form (log entry 14), and the fetch after a push
(R42, R90). -/

namespace Sys2Proof.Machine

/-- R100, R101: only JSR_ABS at the last address of memory raises the condition; what it leaves. -/
theorem exec_fault {i : Instr} {s : State} {f : Fault} (h : exec i s = .fault f) :
    (∃ target, i = .jsrAbs target) ∧ s.sp.toNat = 65535 ∧
      f = .outOfRange 65536 { s.fetched 3 with run := .faulted, faultAddr := some 65536 } := by
  cases i with
  | ldaIm d8 => rw [exec_ldaIm] at h; cases h
  | ldaZp d8 => rw [exec_ldaZp] at h; cases h
  | ldaZpx d8 => rw [exec_ldaZpx] at h; cases h
  | unrecognized op => rw [exec_unrecognized] at h; cases h
  | jsrAbs target =>
    have hword : s.sp.toNat < 65536 := s.sp.isLt
    by_cases htop : s.sp.toNat = 65535
    · rw [exec_jsrAbs_outside target htop] at h
      cases h
      exact ⟨⟨target, rfl⟩, htop, rfl⟩
    · rw [exec_jsrAbs_inside target (by omega)] at h
      cases h

/-- A step that faults has stored nothing (the spec's decision D10). -/
theorem stepWith_fault_keeps_mem {k : OpcodeMap} {s left : State} {addr : Nat}
    (h : stepWith k s = .fault (.outOfRange addr left)) : left.mem = s.mem := by
  obtain ⟨-, hexec⟩ := stepWith_fault h
  obtain ⟨-, -, hf⟩ := exec_fault hexec
  cases hf
  rfl

/-- Settles O46: a step that completes stores inside the array only, a step that faults stores nothing. -/
theorem stepKeepsMemoryCanonical : Obligations.StepKeepsMemoryCanonical := by
  intro k s hwf
  refine ⟨fun t h => stepWith_keeps_wf hwf h, fun addr left h => ?_⟩
  rw [stepWith_fault_keeps_mem h]
  exact hwf

/-- Settles O45: reset lists no cell. -/
theorem resetMemoryCanonical : Obligations.ResetMemoryCanonical :=
  ⟨Memory.wf_nil, fun _ => Memory.wf_nil⟩

/-- Settles O24: below the last address SP + 1 does not wrap, so the two stored bytes lie at the words SP and SP + 1. -/
theorem fetchSeesPushedBytes : Obligations.FetchSeesPushedBytes := by
  intro target s hsp
  have hinside : s.sp.toNat < 65535 := by bv_omega
  have hlow : target.toNat = s.sp.toNat ↔ target = s.sp := BitVec.toNat_inj
  have hhigh : target.toNat = s.sp.toNat + 1 ↔ target = s.sp + 1 := by bv_omega
  refine ⟨_, exec_jsrAbs_inside target hinside, ?_⟩
  simp only [fetchByte, Memory.read_write_pair, hlow, hhigh]

end Sys2Proof.Machine
end

section
/-! The dispatch table, the decoder and the encoder (30_encoding.md R50 to R57): which entry each instruction has, that
decoding and encoding undo each other, and the statements that follow. -/

namespace Sys2Proof

open Sys2Proof.Machine

/-! ## The dispatch table (R56) -/

/-- A hit is an entry of the table, under the key looked for. -/
theorem mem_of_lookup {k : OpcodeMap} {op : Byte} {e : TableEntry} (h : lookup k op = some e) :
    e ∈ dispatchTable k ∧ e.key = op := by
  unfold lookup at h
  have hkey := List.find?_some h
  exact ⟨List.mem_of_find?_eq_some h, eq_of_beq hkey⟩

/-- Under distinct keys the dispatcher finds an entry of the table by its own key. -/
theorem lookup_of_mem {k : OpcodeMap} (hk : k.Distinct) {e : TableEntry} (he : e ∈ dispatchTable k) :
    lookup k e.key = some e := by
  have hsome : (lookup k e.key).isSome := List.find?_isSome.mpr ⟨e, he, beq_self_eq_true e.key⟩
  obtain ⟨found, hfound⟩ := Option.isSome_iff_exists.mp hsome
  obtain ⟨hmem, hkey⟩ := mem_of_lookup hfound
  have hnodup : ((dispatchTable k).map TableEntry.key).Nodup := hk
  have heq : found = e := List.inj_on_of_nodup_map hnodup hmem he hkey
  rw [hfound, heq]

/-- A byte that is none of the four keys misses the table. -/
theorem lookup_eq_none {k : OpcodeMap} {op : Byte} (him : op ≠ k.ldaIm) (hzp : op ≠ k.ldaZp) (hzpx : op ≠ k.ldaZpx)
    (hjsr : op ≠ k.jsrAbs) : lookup k op = none := by
  simp [lookup, dispatchTable, him.symm, hzp.symm, hzpx.symm, hjsr.symm]

/-- Settles O29: each entry is found by its key, and nothing else is in the table. -/
theorem dispatchTableEntries : Obligations.DispatchTableEntries := by
  intro k hk
  have hentries : ∀ e ∈ dispatchTable k, lookup k e.key = some e := fun e he => lookup_of_mem hk he
  simp only [dispatchTable, List.forall_mem_cons] at hentries
  obtain ⟨him, hzp, hzpx, hjsr, -⟩ := hentries
  exact ⟨him, hzp, hzpx, hjsr, fun op => lookup_eq_none⟩

theorem wellFormedFor_unrecognized {k : OpcodeMap} {op : Byte} :
    (Instr.unrecognized op).wellFormedFor k = true ↔
      op ≠ k.ldaIm ∧ op ≠ k.ldaZp ∧ op ≠ k.ldaZpx ∧ op ≠ k.jsrAbs := by
  simp [Instr.wellFormedFor, and_assoc]

/-- The entry R56's table holds for an instruction, none for an unrecognized opcode. -/
def Instr.entry (k : OpcodeMap) : Instr → Option TableEntry
  | .ldaIm _ => some ⟨k.ldaIm, .ldaIm, .immediate, 2, true⟩
  | .ldaZp _ => some ⟨k.ldaZp, .ldaZp, .zeroPage, 3, true⟩
  | .ldaZpx _ => some ⟨k.ldaZpx, .ldaZpx, .zeroPageX, 4, true⟩
  | .jsrAbs _ => some ⟨k.jsrAbs, .jsrAbs, .absolute, 5, false⟩
  | .unrecognized _ => none

/-- The dispatcher finds a well-formed instruction's entry by its opcode. -/
theorem lookup_opcode {k : OpcodeMap} {i : Instr} (hk : k.Distinct) (hi : i.wellFormedFor k = true) :
    lookup k (i.opcode k) = i.entry k := by
  obtain ⟨him, hzp, hzpx, hjsr, -⟩ := dispatchTableEntries k hk
  cases i with
  | ldaIm d8 => exact him
  | ldaZp d8 => exact hzp
  | ldaZpx d8 => exact hzpx
  | jsrAbs target => exact hjsr
  | unrecognized op =>
    obtain ⟨hne_im, hne_zp, hne_zpx, hne_jsr⟩ := wellFormedFor_unrecognized.mp hi
    exact lookup_eq_none hne_im hne_zp hne_zpx hne_jsr

/-! ## Decoding an encoding (R50 to R54) -/

theorem operandCount_opcode {k : OpcodeMap} {i : Instr} (hk : k.Distinct) (hi : i.wellFormedFor k = true) :
    operandCount k (i.opcode k) = i.operands.length := by
  rw [operandCount, lookup_opcode hk hi]
  cases i with
  | ldaIm d8 => rfl
  | ldaZp d8 => rfl
  | ldaZpx d8 => rfl
  | jsrAbs target => rfl
  | unrecognized op => rfl

/-- The decoder makes an instruction of its opcode and its operand bytes, whatever bytes follow. -/
theorem decodeFetched_opcode {k : OpcodeMap} {i : Instr} (hk : k.Distinct) (hi : i.wellFormedFor k = true)
    (rest : List Byte) :
    decodeFetched k (i.opcode k) ((i.operands ++ rest).getD 0 0) ((i.operands ++ rest).getD 1 0) = i := by
  rw [decodeFetched, lookup_opcode hk hi]
  cases i with
  | ldaIm d8 => rfl
  | ldaZp d8 => rfl
  | ldaZpx d8 => rfl
  | jsrAbs target => exact congrArg Instr.jsrAbs (wordOf_lowByte_highByte target)
  | unrecognized op => rfl

/-- A list that holds the operand bytes the opcode asks for decodes. -/
theorem decodeWith_cons {k : OpcodeMap} {op : Byte} {tail : List Byte} (h : operandCount k op ≤ tail.length) :
    decodeWith k (op :: tail) =
      .ok (decodeFetched k op (tail.getD 0 0) (tail.getD 1 0), tail.drop (operandCount k op)) := by
  rw [decodeWith, if_neg (Nat.not_lt.mpr h)]

/-- Settles O26: the opcode asks for exactly the operand bytes, and they are what follows it. -/
theorem decodeInvertsEncode : Obligations.DecodeInvertsEncode := by
  intro k i rest hk hi
  have hcount := operandCount_opcode hk hi
  have hfits : operandCount k (i.opcode k) ≤ (i.operands ++ rest).length := by simp [hcount]
  calc decodeWith k (encodeWith k i ++ rest)
    _ = decodeWith k (i.opcode k :: (i.operands ++ rest)) := rfl
    _ = .ok (i, (i.operands ++ rest).drop (operandCount k (i.opcode k))) := by
      rw [decodeWith_cons hfits, decodeFetched_opcode hk hi]
    _ = .ok (i, rest) := by rw [hcount, List.drop_left]

/-- Settles O31: the three bytes are the encoding of the JSR_ABS to the word they make up. -/
theorem absoluteOperandLowByteFirst : Obligations.AbsoluteOperandLowByteFirst := by
  intro k lo hi rest hk
  have hencode : encodeWith k (.jsrAbs (wordOf lo hi)) ++ rest = k.jsrAbs :: lo :: hi :: rest := by
    simp [encodeWith, Instr.opcode, Instr.operands, lowByte_wordOf, highByte_wordOf]
  refine ⟨wordOf lo hi, ?_, wordOf_toNat lo hi⟩
  rw [← hencode]
  exact decodeInvertsEncode k _ rest hk rfl

/-- Settles O30: the default values of the opcodes, evaluated. -/
theorem specWordsDecode : Obligations.SpecWordsDecode := by
  unfold Obligations.SpecWordsDecode
  decide

/-! ## What decodes, encoded again (R50, R51) -/

theorem decodeWith_eq_ok {k : OpcodeMap} {bytes rest : List Byte} {i : Instr} (h : decodeWith k bytes = .ok (i, rest)) :
    ∃ op tail, bytes = op :: tail ∧ operandCount k op ≤ tail.length ∧
      i = decodeFetched k op (tail.getD 0 0) (tail.getD 1 0) ∧ rest = tail.drop (operandCount k op) := by
  cases bytes with
  | nil => cases h
  | cons op tail =>
    by_cases hshort : tail.length < operandCount k op
    · simp [decodeWith, hshort] at h
    · have hfits := Nat.not_lt.mp hshort
      rw [decodeWith_cons hfits] at h
      cases h
      exact ⟨op, tail, rfl, hfits, rfl, rfl⟩

/-- Decoding makes an `unrecognized` of a miss only. -/
theorem decodeFetched_wellFormed (k : OpcodeMap) (op b1 b2 : Byte) :
    (decodeFetched k op b1 b2).wellFormedFor k = true := by
  obtain ⟨-, h⟩ | ⟨-, h⟩ | ⟨-, h⟩ | ⟨-, h⟩ | ⟨him, hzp, hzpx, hjsr, h⟩ := lookup_cases k op
  · rw [decodeFetched, h]; rfl
  · rw [decodeFetched, h]; rfl
  · rw [decodeFetched, h]; rfl
  · rw [decodeFetched, h]; rfl
  · rw [decodeFetched, h]
    exact wellFormedFor_unrecognized.mpr ⟨him, hzp, hzpx, hjsr⟩

/-- What is decoded has the opcode and the operand bytes it was decoded from. -/
theorem encodeWith_decodeFetched (k : OpcodeMap) (op b1 b2 : Byte) :
    encodeWith k (decodeFetched k op b1 b2) = op :: [b1, b2].take (operandCount k op) := by
  obtain ⟨hop, h⟩ | ⟨hop, h⟩ | ⟨hop, h⟩ | ⟨hop, h⟩ | ⟨-, -, -, -, h⟩ := lookup_cases k op
  · rw [decodeFetched, operandCount, h, hop]; rfl
  · rw [decodeFetched, operandCount, h, hop]; rfl
  · rw [decodeFetched, operandCount, h, hop]; rfl
  · rw [decodeFetched, operandCount, h, hop]
    simp [encodeWith, assemble, Instr.opcode, Instr.operands, Mode.operandBytes, lowByte_wordOf, highByte_wordOf]
  · rw [decodeFetched, operandCount, h]; rfl

theorem Mode.operandBytes_le_two (m : Mode) : m.operandBytes ≤ 2 := by
  cases m <;> decide

theorem operandCount_le_two (k : OpcodeMap) (op : Byte) : operandCount k op ≤ 2 := by
  cases h : lookup k op with
  | none => exact (operandCount_of_miss h).trans_le (Nat.zero_le 2)
  | some e => exact (operandCount_of_lookup h).trans_le e.mode.operandBytes_le_two

/-- The first bytes of a list, at most two of them, are those its first two places hold. -/
theorem take_getD_pair {n : Nat} {tail : List Byte} (hn : n ≤ 2) (hfits : n ≤ tail.length) :
    [tail.getD 0 0, tail.getD 1 0].take n = tail.take n := by
  match n, tail with
  | 0, _ => rfl
  | 1, _ :: _ => rfl
  | 2, _ :: _ :: _ => rfl

/-- Settles O27: the opcode and the operand bytes taken, followed by the bytes dropped, are the whole list. -/
theorem encodeInvertsDecode : Obligations.EncodeInvertsDecode := by
  intro k bytes rest i h
  obtain ⟨op, tail, rfl, hfits, rfl, rfl⟩ := decodeWith_eq_ok h
  refine ⟨?_, decodeFetched_wellFormed k op _ _⟩
  rw [encodeWith_decodeFetched, take_getD_pair (operandCount_le_two k op) hfits, List.cons_append,
    List.take_append_drop]

/-! ## Lengths (R51) -/

theorem encodedShape (i : Instr) : Laws.EncodedShape.Statement i := by
  cases i with
  | ldaIm d8 => exact Laws.EncodedShape.ldaIm d8
  | ldaZp d8 => exact Laws.EncodedShape.ldaZp d8
  | ldaZpx d8 => exact Laws.EncodedShape.ldaZpx d8
  | jsrAbs target => exact Laws.EncodedShape.jsrAbs target
  | unrecognized op => exact Laws.EncodedShape.unrecognized op

theorem Instr.length_bounds (i : Instr) : 1 ≤ i.length ∧ i.length ≤ 3 := by
  cases i <;> simp [Instr.length]

/-- Settles O32: the shape holds for each constructor. -/
theorem encodingHasInstructionLength : Obligations.EncodingHasInstructionLength := by
  intro k i
  obtain ⟨hlength, hhead⟩ := encodedShape i k
  exact ⟨hlength, hhead, i.length_bounds⟩

/-- A decoded instruction is as long as its opcode and the operand bytes the opcode asks for. -/
theorem length_decodeFetched (k : OpcodeMap) (op b1 b2 : Byte) :
    (decodeFetched k op b1 b2).length = operandCount k op + 1 := by
  obtain ⟨hlength, -⟩ := encodedShape (decodeFetched k op b1 b2) k
  rw [← hlength, encodeWith_decodeFetched]
  simp [operandCount_le_two]

/-- R51's lengths, the opcode byte included. -/
theorem operandCount_succ {k : OpcodeMap} (hk : k.Distinct) (op : Byte) :
    operandCount k op + 1 =
      if op = k.ldaIm ∨ op = k.ldaZp ∨ op = k.ldaZpx then 2 else if op = k.jsrAbs then 3 else 1 := by
  obtain ⟨rfl, h⟩ | ⟨rfl, h⟩ | ⟨rfl, h⟩ | ⟨rfl, h⟩ | ⟨him, hzp, hzpx, hjsr, h⟩ := lookup_cases k op
  · simp [operandCount_of_lookup h, Mode.operandBytes]
  · simp [operandCount_of_lookup h, Mode.operandBytes]
  · simp [operandCount_of_lookup h, Mode.operandBytes]
  · have hload : ¬ (k.jsrAbs = k.ldaIm ∨ k.jsrAbs = k.ldaZp ∨ k.jsrAbs = k.ldaZpx) := by
      simp only [OpcodeMap.Distinct, List.nodup_cons, List.mem_cons] at hk
      tauto
    simp [operandCount_of_lookup h, Mode.operandBytes, hload]
  · simp [operandCount_of_miss h, him, hzp, hzpx, hjsr]

/-- Three bytes hold a whole instruction, whatever the first is. -/
theorem decodeWith_three (k : OpcodeMap) (op b1 b2 : Byte) (rest : List Byte) :
    decodeWith k (op :: b1 :: b2 :: rest) =
      .ok (decodeFetched k op b1 b2, (b1 :: b2 :: rest).drop (operandCount k op)) :=
  decodeWith_cons ((operandCount_le_two k op).trans (by simp))

/-- Settles O28: the decoded instruction is one byte longer than its operands. -/
theorem lengthDecidedByOpcode : Obligations.LengthDecidedByOpcode := by
  intro k op b1 b2 rest hk
  have hlength := length_decodeFetched k op b1 b2
  refine ⟨decodeFetched k op b1 b2, ?_, hlength.trans (operandCount_succ hk op)⟩
  rw [decodeWith_three, hlength, List.drop_succ_cons]

end Sys2Proof

namespace Sys2Proof.Machine

/-! ## The step on an encoded instruction (R56, R69) -/

/-- The three bytes at PC, addresses modulo 65536. -/
def bytesAtPc (s : State) : List Byte :=
  [s.mem.read s.pc.toNat, s.mem.read (s.pc + 1).toNat, s.mem.read (s.pc + 2).toNat]

theorem getElem?_bytesAtPc (s : State) {j : Nat} (hj : j < 3) :
    (bytesAtPc s)[j]? = some (s.mem.read (s.pc + BitVec.ofNat 16 j).toNat) := by
  match j with
  | 0 => simp [bytesAtPc]
  | 1 => rfl
  | 2 => rfl

/-- The fetch gives what the bytes at PC decode to. -/
theorem decodeWith_bytesAtPc (k : OpcodeMap) (s : State) :
    ∃ rest, decodeWith k (bytesAtPc s) = .ok (fetchInstr k s, rest) :=
  ⟨_, decodeWith_three k _ _ _ []⟩

/-- Settles O20: the bytes at PC begin with the encoding, and decoding inverts it. -/
theorem stepRunsEncodedInstruction : Obligations.StepRunsEncodedInstruction := by
  intro k s i hk hi hrun hmem
  obtain ⟨hlength, -⟩ := encodedShape i k
  have hprefix : encodeWith k i <+: bytesAtPc s := by
    refine List.prefix_iff_getElem?.mpr fun j hj => ?_
    have hjlen : j < i.length := hlength ▸ hj
    have hj3 : j < 3 := hjlen.trans_le i.length_bounds.2
    rw [getElem?_bytesAtPc s hj3, ← hmem j hjlen, List.getElem?_eq_getElem hj]
  obtain ⟨after, hbytes⟩ := hprefix
  obtain ⟨rest, hfetch⟩ := decodeWith_bytesAtPc k s
  rw [← hbytes, decodeInvertsEncode k i after hk hi] at hfetch
  cases hfetch
  exact stepWith_running k hrun

/-- Settles O18: a load ends in `State.loadA`, the other two instructions write no flag. -/
theorem flagsMatchDispatchPolicy : Obligations.FlagsMatchDispatchPolicy := by
  intro k i s t hk hi h
  rw [lookup_opcode hk hi]
  cases i with
  | ldaIm d8 =>
    rw [exec_ldaIm] at h
    cases h
    rfl
  | ldaZp d8 =>
    rw [exec_ldaZp] at h
    cases h
    rfl
  | ldaZpx d8 =>
    rw [exec_ldaZpx] at h
    cases h
    rfl
  | jsrAbs target =>
    obtain ⟨-, rfl⟩ := exec_jsrAbs_next h
    rfl
  | unrecognized op =>
    rw [exec_unrecognized] at h
    cases h
    rfl

end Sys2Proof.Machine
end

section
/-! What an instruction charges (R68, R76), and the step beside its printed rules (R65, R67, R69, R72). -/

namespace Sys2Proof

/-- The cycles of an instruction, its fetches included: what its meaning charges (R76). -/
def Instr.cost : Instr → Nat
  | .ldaIm _ => 2
  | .ldaZp _ => 3
  | .ldaZpx _ => 4
  | .jsrAbs _ => 5
  | .unrecognized _ => 1

theorem Instr.cost_bounds (i : Instr) : 1 ≤ i.cost ∧ i.cost ≤ 5 := by
  cases i <;> simp [Instr.cost]

end Sys2Proof

namespace Sys2Proof.Machine

/-! ## Charges -/

/-- An instruction that completes charges its cost, and nothing else it does depends on the counter (R127). -/
theorem exec_withCyc {i : Instr} {s t : State} (h : exec i s = .next t) (c : Int) :
    exec i { s with cyc := c } = .next { t with cyc := c - i.cost } := by
  cases i with
  | ldaIm d8 =>
    rw [exec_ldaIm] at h ⊢
    cases h
    rfl
  | ldaZp d8 =>
    have hcyc : c - 2 - 1 = c - 3 := by omega
    rw [exec_ldaZp] at h ⊢
    cases h
    simp [State.loadA, State.charge, State.fetched, costFetch, Instr.cost, hcyc]
  | ldaZpx d8 =>
    have hcyc : c - 2 - 2 = c - 4 := by omega
    rw [exec_ldaZpx] at h ⊢
    cases h
    simp [State.loadA, State.charge, State.fetched, costFetch, Instr.cost, hcyc]
  | jsrAbs target =>
    obtain ⟨hinside, rfl⟩ := exec_jsrAbs_next h
    exact exec_jsrAbs_inside target hinside
  | unrecognized op =>
    rw [exec_unrecognized] at h ⊢
    cases h
    rfl

theorem exec_next_cyc {i : Instr} {s t : State} (h : exec i s = .next t) : t.cyc = s.cyc - i.cost := by
  have hsame : Host.Outcome.next t = .next { t with cyc := s.cyc - i.cost } := h.symm.trans (exec_withCyc h s.cyc)
  exact congrArg State.cyc (Host.Outcome.next.inj hsame)

/-- Settles O17: an instruction's cost is the one its entry shows. -/
theorem cyclesMatchDispatchTable : Obligations.CyclesMatchDispatchTable := by
  intro k i s t hk hi h
  rw [lookup_opcode hk hi, exec_next_cyc h]
  cases i with
  | ldaIm d8 => rfl
  | ldaZp d8 => rfl
  | ldaZpx d8 => rfl
  | jsrAbs target => rfl
  | unrecognized op => rfl

/-- R76: a step charges from 1 to 5 cycles. -/
theorem stepWith_charge_bounds {k : OpcodeMap} {s t : State} (h : stepWith k s = .next t) :
    t.cyc + 1 ≤ s.cyc ∧ s.cyc ≤ t.cyc + 5 := by
  obtain ⟨-, hexec⟩ := stepWith_next h
  have hcyc := exec_next_cyc hexec
  obtain ⟨hleast, hmost⟩ := (fetchInstr k s).cost_bounds
  omega

/-- The same step from another counter charges the same (R127). -/
theorem stepWith_withCyc {k : OpcodeMap} {s t : State} (h : stepWith k s = .next t) (c : Int) :
    stepWith k { s with cyc := c } = .next { t with cyc := c + (t.cyc - s.cyc) } := by
  obtain ⟨hrun, hexec⟩ := stepWith_next h
  have hcyc : c + (t.cyc - s.cyc) = c - (fetchInstr k s).cost := by
    rw [exec_next_cyc hexec]
    omega
  calc stepWith k { s with cyc := c }
    _ = exec (fetchInstr k s) { s with cyc := c } := stepWith_running k hrun
    _ = .next { t with cyc := c + (t.cyc - s.cyc) } := by rw [hcyc, exec_withCyc hexec c]

/-! ## One step (R65, R67, R69, R72) -/

/-- Settles O8: one byte fetched and one record sent. -/
theorem unrecognizedReportsAndSkips : Obligations.UnrecognizedReportsAndSkips :=
  exec_unrecognized

/-- Settles O21: the run state is tested before anything is fetched. -/
theorem stepRefusedOutsideRunning : Obligations.StepRefusedOutsideRunning := by
  intro k s
  refine ⟨fun hidle => ?_, fun hfaulted => ?_⟩
  · simp only [stepWith, hidle]
  · simp only [stepWith, hfaulted]

/-- Settles O19: what the bytes at PC decode to is what the fetch gives. -/
theorem stepRunsDecodedInstruction : Obligations.StepRunsDecodedInstruction := by
  intro s i rest hrun hdecode
  obtain ⟨_, hfetch⟩ := decodeWith_bytesAtPc opcodes s
  have hsame : decodeWith opcodes (bytesAtPc s) = .ok (i, rest) := hdecode
  rw [hfetch] at hsame
  cases hsame
  exact stepWith_running opcodes hrun

/-- Settles O43: PC is a word, so the byte it points at is inside the array, and it wraps as words do. -/
theorem fetchByteRule : Obligations.FetchByteRule := by
  intro s
  refine ⟨memRead_word s.pc s, ?pc, rfl⟩
  case pc => exact BitVec.toNat_add s.pc 1

/-! ## The printed pseudocode (R69, R72, R80 to R82, R90) -/

theorem State.fetched_fetched (m n : Nat) (s : State) : (s.fetched m).fetched n = s.fetched (m + n) := by
  have hpc : s.pc + BitVec.ofNat 16 m + BitVec.ofNat 16 n = s.pc + BitVec.ofNat 16 (m + n) := by
    rw [BitVec.ofNat_add, BitVec.add_assoc]
  have hcyc : s.cyc - (m : Int) - n = s.cyc - (m + n : Nat) := by omega
  simp only [State.fetched, State.charge, costFetch, Nat.mul_one, hpc, hcyc]

/-- A byte fetched after `n` others is the one `n` places after PC. -/
theorem fetchByte_fetched (n : Nat) (s : State) :
    fetchByte (s.fetched n) = (s.mem.read (s.pc + BitVec.ofNat 16 n).toNat, s.fetched (n + 1)) := by
  rw [← State.fetched_fetched]
  rfl

/-- A handler that fetches its operands while it runs does what the meaning of the assembled instruction does. -/
theorem pseudoHandler_fetched_one (handler : Handler) (s : State) :
    pseudoHandler handler (s.fetched 1) =
      exec (assemble handler (s.mem.read (s.pc + 1).toNat) (s.mem.read (s.pc + 2).toNat)) s := by
  have hfirst : fetchByte (s.fetched 1) = (s.mem.read (s.pc + 1).toNat, s.fetched 2) := fetchByte_fetched 1 s
  cases handler with
  | ldaIm =>
    rw [pseudoHandler, hfirst]
    rfl
  | ldaZp =>
    rw [pseudoHandler, hfirst]
    rfl
  | ldaZpx =>
    rw [pseudoHandler, hfirst]
    rfl
  | jsrAbs =>
    have hsecond : fetchByte (s.fetched 2) = (s.mem.read (s.pc + 2).toNat, s.fetched 3) := fetchByte_fetched 2 s
    simp only [pseudoHandler, hfirst, hsecond, assemble, exec, execJsrAbs, pushWord, State.stackAddr, returnAddress]
    cases memWriteWord (s.fetched 3).sp.toNat ((s.fetched 3).pc - 1) (s.fetched 3) with
    | error addr => rfl
    | ok s' => rfl

/-- Settles O22: the opcode fetch is common, and a miss is reported by both. -/
theorem stepMatchesPseudocode : Obligations.StepMatchesPseudocode := by
  intro k s hrun
  rw [stepWith_running k hrun]
  cases hlookup : lookup k (s.mem.read s.pc.toNat) with
  | none =>
    rw [fetchInstr_of_miss hlookup, exec_unrecognized]
    simp only [pseudoStep, fetchByte, hlookup]
  | some e =>
    rw [fetchInstr_of_lookup hlookup, ← pseudoHandler_fetched_one]
    simp only [pseudoStep, fetchByte, hlookup]

end Sys2Proof.Machine
end

section
/-! The call `execute` (R65, R66, R70 to R74): its loop as a run of steps that ends when the budget is spent, free of
the fuel, and the statements about calls. -/

namespace Sys2Proof.Machine

/-! ## The loop -/

/-- `n` steps lead from `s` to `u`, each started with cycles left, and none are left in `u`: the run of R66's loop. -/
inductive RunsOut (k : OpcodeMap) : Nat → State → State → Prop where
  | spent (s : State) : s.cyc ≤ 0 → RunsOut k 0 s s
  | more (n : Nat) (s s' u : State) :
      0 < s.cyc → stepWith k s = .next s' → RunsOut k n s' u → RunsOut k (n + 1) s u

theorem runLoop_spent (k : OpcodeMap) (fuel : Nat) {s : State} (h : s.cyc ≤ 0) : runLoop k fuel s = .next s := by
  cases fuel with
  | zero => rfl
  | succ fuel =>
    have hstop : ¬ (0 < s.cyc ∧ s.run = .running) := fun hgo => by omega
    rw [runLoop, if_neg hstop]

/-- A turn of the loop with cycles left is one step, and the loop goes on from the state it answers. -/
theorem runLoop_turn {k : OpcodeMap} {fuel : Nat} {s u : State} (hcyc : 0 < s.cyc) (hrun : s.run = .running) :
    runLoop k (fuel + 1) s = .next u ↔ ∃ s', stepWith k s = .next s' ∧ runLoop k fuel s' = .next u := by
  rw [runLoop, if_pos ⟨hcyc, hrun⟩]
  cases stepWith k s with
  | next s' => simp
  | fault f => simp
  | refused r => simp

theorem runsOut_of_runLoop {k : OpcodeMap} {fuel : Nat} {s u : State} (hrun : s.run = .running) (hfuel : s.cyc ≤ fuel)
    (h : runLoop k fuel s = .next u) : ∃ n, RunsOut k n s u := by
  induction fuel generalizing s with
  | zero =>
    cases h
    exact ⟨0, .spent _ hfuel⟩
  | succ fuel ih =>
    by_cases hcyc : 0 < s.cyc
    · obtain ⟨s', hstep, hloop⟩ := (runLoop_turn hcyc hrun).mp h
      obtain ⟨-, -, -, -, -, -, -, -, hrun'⟩ := noStepWritesInertState k s s' hstep
      have hcharge := stepWith_charge_bounds hstep
      obtain ⟨n, hn⟩ := ih (hrun'.trans hrun) (by omega) hloop
      exact ⟨n + 1, .more n s s' u hcyc hstep hn⟩
    · rw [runLoop_spent k _ (not_lt.mp hcyc)] at h
      cases h
      exact ⟨0, .spent _ (not_lt.mp hcyc)⟩

theorem RunsOut.runLoop_eq {k : OpcodeMap} {n fuel : Nat} {s u : State} (h : RunsOut k n s u) (hfuel : s.cyc ≤ fuel) :
    runLoop k fuel s = .next u := by
  induction h generalizing fuel with
  | spent s hcyc => exact runLoop_spent k fuel hcyc
  | more n s s' u hcyc hstep _ ih =>
    obtain ⟨hrun, -⟩ := stepWith_next hstep
    have hcharge := stepWith_charge_bounds hstep
    cases fuel with
    | zero => omega
    | succ fuel => exact (runLoop_turn hcyc hrun).mpr ⟨s', hstep, ih (by omega)⟩

/-- A call in Running returns exactly when a run of steps spends its budget; a fuel of as many turns is enough (R74). -/
theorem executeWith_eq_returned_iff_runsOut {k : OpcodeMap} {budget : Nat} {s t : State} {consumed : Int} :
    executeWith k budget s = .returned t consumed ↔
      s.run = .running ∧ ∃ n u, RunsOut k n { s with cyc := budget } u ∧
        t = { u with cyc := s.cyc } ∧ consumed = budget - u.cyc := by
  rw [executeWith_eq_returned_iff]
  refine and_congr_right fun hrun => ⟨?_, ?_⟩
  · rintro ⟨u, hloop, ht, hconsumed⟩
    obtain ⟨n, hn⟩ := runsOut_of_runLoop (s := { s with cyc := budget }) hrun le_rfl hloop
    exact ⟨n, u, hn, ht, hconsumed⟩
  · rintro ⟨n, u, hn, ht, hconsumed⟩
    exact ⟨u, hn.runLoop_eq le_rfl, ht, hconsumed⟩

/-! ## What a run that spends its budget is like -/

theorem RunsOut.steps {k : OpcodeMap} {n : Nat} {s u : State} (h : RunsOut k n s u) : Steps k n s u := by
  induction h with
  | spent s _ => exact .none s
  | more n s s' u _ hstep _ ih => exact .more n s s' u hstep ih

theorem RunsOut.cyc_nonpos {k : OpcodeMap} {n : Nat} {s u : State} (h : RunsOut k n s u) : u.cyc ≤ 0 := by
  induction h with
  | spent s hcyc => exact hcyc
  | more n s s' u _ _ _ ih => exact ih

/-- The last step starts with at least one cycle left and charges at most 5. -/
theorem RunsOut.overshoot {k : OpcodeMap} {n : Nat} {s u : State} (h : RunsOut k n s u) (hs : -4 ≤ s.cyc) :
    -4 ≤ u.cyc := by
  induction h with
  | spent s _ => exact hs
  | more n s s' u hcyc hstep _ ih =>
    have hcharge := stepWith_charge_bounds hstep
    exact ih (by omega)

/-- Each step charges at least one cycle, so there are no more steps than cycles at the start (R74). -/
theorem RunsOut.count_le {k : OpcodeMap} {n : Nat} {s u : State} (h : RunsOut k n s u) : n ≤ s.cyc.toNat := by
  induction h with
  | spent s _ => exact Nat.zero_le _
  | more n s s' u hcyc hstep _ ih =>
    have hcharge := stepWith_charge_bounds hstep
    omega

theorem RunsOut.count_pos {k : OpcodeMap} {n : Nat} {s u : State} (h : RunsOut k n s u) (hs : 0 < s.cyc) : 0 < n := by
  cases h with
  | spent _ hcyc => omega
  | more n _ s' _ _ _ _ => exact Nat.succ_pos n

/-- Steps are deterministic, so every state before the last of the run is one the run passes through. -/
theorem RunsOut.cyc_pos_of_steps {k : OpcodeMap} {n m : Nat} {s u v : State} (h : RunsOut k n s u) (hm : m < n)
    (hv : Steps k m s v) : 0 < v.cyc := by
  induction h generalizing m with
  | spent s _ => cases hm
  | more n s s' u hcyc hstep _ ih =>
    cases hv with
    | none => exact hcyc
    | more m _ s'' _ hstep' hrest =>
      rw [hstep] at hstep'
      cases hstep'
      exact ih (Nat.lt_of_succ_lt_succ hm) hrest

/-- A run that spends its budget and one from where it stopped, with a new budget `c`, are one run whose budget is what
the first charged and `c` (R73). -/
theorem RunsOut.append {k : OpcodeMap} {n m : Nat} {s u w : State} {c : Int} (hc : 0 ≤ c) (h : RunsOut k n s u)
    (hnext : RunsOut k m { u with cyc := c } w) : RunsOut k (m + n) { s with cyc := s.cyc - u.cyc + c } w := by
  induction h with
  | spent s _ => simpa using hnext
  | more n s s' u hcyc hstep hrest ih =>
    have hspent := hrest.cyc_nonpos
    have hcharged : s.cyc - u.cyc + c + (s'.cyc - s.cyc) = s'.cyc - u.cyc + c := by omega
    have hstep' := stepWith_withCyc hstep (s.cyc - u.cyc + c)
    rw [hcharged] at hstep'
    exact .more (m + n) _ _ w (by simp only; omega) hstep' (ih hnext)

/-! ## The statements about calls -/

/-- Settles O54: the run state is tested before the budget. -/
theorem executeRefusedOutsideRunning : Obligations.ExecuteRefusedOutsideRunning := by
  intro k budget s
  refine ⟨fun hidle => ?_, fun hfaulted => ?_⟩
  · simp only [executeWith, hidle]
  · simp only [executeWith, hfaulted]

/-- Settles O53: a budget of 0 is spent at the start. -/
theorem executeZeroDoesNothing : Obligations.ExecuteZeroDoesNothing :=
  fun _ _ hrun => executeWith_eq_returned_iff_runsOut.mpr ⟨hrun, 0, _, .spent _ le_rfl, rfl, rfl⟩

/-- Settles O55: the run that spends the budget, and its properties. -/
theorem executeRunsUntilBudgetSpent : Obligations.ExecuteRunsUntilBudgetSpent := by
  intro k budget s t consumed h
  obtain ⟨-, n, u, hn, ht, hconsumed⟩ := executeWith_eq_returned_iff_runsOut.mp h
  have hsome : 0 < budget → 0 < n := fun hbudget => hn.count_pos (Int.natCast_pos.mpr hbudget)
  exact ⟨n, u, hn.steps, hn.count_le, hsome, hn.cyc_nonpos, fun m v => hn.cyc_pos_of_steps, ht, hconsumed⟩

/-- Settles O56: the counter ends between -4 and 0. -/
theorem executeOvershootAtMostFour : Obligations.ExecuteOvershootAtMostFour := by
  intro k budget s t consumed h
  obtain ⟨-, n, u, hn, -, rfl⟩ := executeWith_eq_returned_iff_runsOut.mp h
  have hspent := hn.cyc_nonpos
  have hover := hn.overshoot (by simp only; omega)
  omega

/-- Settles O57: the run of the second call goes on from where the first one's stopped. -/
theorem executeResumesWhereItPaused : Obligations.ExecuteResumesWhereItPaused := by
  intro k b1 b2 s s1 s2 c1 c2 h1 h2
  obtain ⟨hrun, n1, u1, hn1, rfl, rfl⟩ := executeWith_eq_returned_iff_runsOut.mp h1
  obtain ⟨-, n2, u2, hn2, rfl, rfl⟩ := executeWith_eq_returned_iff_runsOut.mp h2
  have hspent := hn1.cyc_nonpos
  have hbudget : (((b1 - u1.cyc).toNat + b2 : Nat) : Int) = b1 - u1.cyc + b2 := by omega
  refine executeWith_eq_returned_iff_runsOut.mpr ⟨hrun, n2 + n1, u2, ?run, rfl, ?charged⟩
  case run =>
    rw [hbudget]
    exact hn1.append (Int.natCast_nonneg b2) hn2
  case charged => omega

/-! ## Zeroed memory (R72, R124) -/

/-- The records of `n` zero bytes fetched in a row from `pc` on (R104). -/
def zeroRecords (n : Nat) (pc : Word) : List DiagRecord :=
  (List.range n).map fun j => { op := 0x00, pcAt := pc + BitVec.ofNat 16 j }

/-- What `n` unrecognized zero bytes leave. -/
def State.skipZeros (n : Nat) (s : State) : State :=
  { s.fetched n with diag := s.diag ++ zeroRecords n s.pc }

theorem zeroRecords_add (m n : Nat) (pc : Word) :
    zeroRecords (m + n) pc = zeroRecords m pc ++ zeroRecords n (pc + BitVec.ofNat 16 m) := by
  simp only [zeroRecords, List.range_add, List.map_append, List.map_map, Function.comp_def, BitVec.ofNat_add,
    BitVec.add_assoc]

theorem State.skipZeros_zero (s : State) : s.skipZeros 0 = s := by
  simp [State.skipZeros, zeroRecords, State.fetched, State.charge]

theorem State.skipZeros_skipZeros (m n : Nat) (s : State) : (s.skipZeros m).skipZeros n = s.skipZeros (m + n) := by
  simp only [State.skipZeros, ← State.fetched_fetched, zeroRecords_add, List.append_assoc]
  rfl

theorem stepWith_zero {k : OpcodeMap} {s : State} (hmiss : lookup k 0x00 = none) (hrun : s.run = .running)
    (hzero : ∀ addr, s.mem.read addr = 0x00) : stepWith k s = .next (s.skipZeros 1) := by
  have hlookup : lookup k (s.mem.read s.pc.toNat) = none := by rw [hzero, hmiss]
  rw [stepWith_running k hrun, fetchInstr_of_miss hlookup, exec_unrecognized, hzero]
  simp [State.skipZeros, zeroRecords, State.emitDiag]

theorem runsOut_skipZeros {k : OpcodeMap} {n : Nat} {s : State} (hmiss : lookup k 0x00 = none)
    (hrun : s.run = .running) (hzero : ∀ addr, s.mem.read addr = 0x00) (hcyc : s.cyc = n) :
    RunsOut k n s (s.skipZeros n) := by
  induction n generalizing s with
  | zero =>
    rw [State.skipZeros_zero]
    exact .spent s hcyc.le
  | succ n ih =>
    have hcyc' : (s.skipZeros 1).cyc = n := by
      simp only [State.skipZeros, State.fetched_cyc]
      omega
    have hrest := ih (s := s.skipZeros 1) hrun hzero hcyc'
    rw [State.skipZeros_skipZeros, Nat.add_comm 1 n] at hrest
    exact .more n _ _ _ (by omega) (stepWith_zero hmiss hrun hzero) hrest

/-- Settles O60, by induction on the budget: each step fetches one zero byte, which the dispatcher misses. -/
theorem emptyMemoryRunReportsEveryByte : Obligations.EmptyMemoryRunReportsEveryByte := by
  intro k n s hmiss hrun hzero
  have hn : RunsOut k n { s with cyc := n } _ := runsOut_skipZeros hmiss hrun hzero rfl
  refine executeWith_eq_returned_iff_runsOut.mpr ⟨hrun, n, _, hn, rfl, ?_⟩
  simp [State.skipZeros]

end Sys2Proof.Machine
end

section
/-! The Load-Accumulator family (41_load_accumulator.md): the whole effect of each load, the frame of the instructions
that store nothing, and the flag computation by ranges of the value. -/

namespace Sys2Proof.Machine

/-! ## The whole next state of a load (R80 to R82) -/

/-- What a load of `v` leaves that charges `c` cycles beyond its two fetches. -/
theorem State.loadA_charge_fetched_two (c : Nat) (v : Byte) (s : State) :
    ((s.fetched 2).charge c).loadA v = { s with
      a := v
      p := { s.p with z := v == 0, n := v.getLsbD 7 }
      pc := s.pc + 2
      cyc := s.cyc - (2 + c : Nat) } := by
  have hcyc : s.cyc - (2 : Nat) - c = s.cyc - (2 + c : Nat) := by omega
  simp only [State.loadA, State.charge, State.fetched, costFetch, Nat.mul_one, hcyc, Flags.setZN]
  rfl

/-- Settles O3: the two fetches are all it charges. -/
theorem ldaImLoadsOperand : Obligations.LdaImLoadsOperand :=
  exec_ldaIm

/-- Settles O4: the data read is charged beyond the fetches. -/
theorem ldaZpLoadsZeroPageByte : Obligations.LdaZpLoadsZeroPageByte := by
  intro d8 s
  rw [exec_ldaZp, State.loadA_charge_fetched_two]
  rfl

/-- Settles O5: the index add and the data read are charged beyond the fetches. -/
theorem ldaZpxLoadsIndexedByte : Obligations.LdaZpxLoadsIndexedByte := by
  intro d8 s
  rw [exec_ldaZpx, State.loadA_charge_fetched_two]
  rfl

/-- Settles O9: without an index both read the byte at `d8`, and the index add is one more charge. -/
theorem ldaZpxWithZeroIndexIsLdaZp : Obligations.LdaZpxWithZeroIndexIsLdaZp := by
  intro d8 s hx
  have haddr : (d8.toNat + s.x.toNat) % 256 = d8.toNat := by
    have hbyte : d8.toNat < 256 := d8.isLt
    simp [hx, Nat.mod_eq_of_lt hbyte]
  refine ⟨_, exec_ldaZp d8 s, ?_⟩
  rw [exec_ldaZpx, haddr, ← State.charge_charge 1 1]
  rfl

/-! ## Frame (R72, R80 to R83) -/

/-- Settles O10: a load writes A, Z, N, PC and the counter, an unrecognized opcode PC, the counter and the stream. -/
theorem registerFormsFrame : Obligations.RegisterFormsFrame := by
  intro i s t h hjsr
  have hunrecognized : ∀ op, i = .unrecognized op → t.a = s.a ∧ t.p = s.p := by
    rintro op rfl
    rw [exec_unrecognized] at h
    cases h
    exact ⟨rfl, rfl⟩
  obtain ⟨c, v, rfl⟩ | ⟨target, hi, -⟩ | ⟨op, hi, rfl⟩ := exec_next_cases h
  · simpa using hunrecognized
  · exact absurd hi (hjsr target)
  · simp [hi]

/-! ## The flag computation (R83) -/

theorem Flags.setZN_z_iff (v : Byte) (p : Flags) : (p.setZN v).z = true ↔ v.toNat = 0 := by
  rw [Flags.setZN_z, beq_iff_eq, ← BitVec.toNat_inj]
  rfl

/-- N is the top bit, which is set in the upper half of the values. -/
theorem Flags.setZN_n_iff (v : Byte) (p : Flags) : (p.setZN v).n = true ↔ 0x80 ≤ v.toNat := by
  have hmsb : v.msb = v.getLsbD 7 := BitVec.msb_eq_getLsbD_last v
  rw [Flags.setZN_n, ← hmsb, BitVec.msb_eq_decide, decide_eq_true_iff]

/-- Settles O33: Z is set at 0 alone and N from 0x80 on, so no value sets both. -/
theorem setZNRule : Obligations.SetZNRule := by
  intro v p
  refine ⟨rfl, ?_⟩
  simp only [← Bool.not_eq_true, Flags.setZN_z_iff, Flags.setZN_n_iff]
  omega

end Sys2Proof.Machine
end

section
/-! Jump-to-Subroutine (42_jump_subroutine.md): the frame of JSR_ABS, its whole effect where the push fits, and its stop
at the last address of memory. -/

namespace Sys2Proof.Machine

/-- Fetching moves no stack address (R91). -/
@[simp] theorem State.fetched_stackAddr (n : Nat) (s : State) : (s.fetched n).stackAddr = s.sp.toNat := rfl

/-- Settles O11: JSR_ABS writes PC, SP, the counter and the two bytes at SP as it was, and nothing else. -/
theorem jsrAbsFrame : Obligations.JsrAbsFrame := by
  intro target s t h
  obtain ⟨-, rfl⟩ := exec_jsrAbs_next h
  refine ⟨rfl, rfl, rfl, rfl, rfl, rfl, rfl, ?_⟩
  rintro stored rfl addr houtside
  rw [State.fetched_stackAddr] at houtside
  exact Memory.read_write_pair_outside s.mem _ _ houtside

/-- Settles O6: SP is below the last address, so both bytes of the return address fit; what stays is the frame's. -/
theorem jsrAbsPushesAndJumps : Obligations.JsrAbsPushesAndJumps := by
  intro target s hsp
  have hinside : s.sp.toNat < 65535 := by bv_omega
  have hexec : exec (.jsrAbs target) s = .next (s.jsrAbsNext target) := exec_jsrAbs_inside target hinside
  obtain ⟨ha, hx, hy, hp, hrun, hdiag, hfault, hmem⟩ := jsrAbsFrame target s _ hexec
  refine ⟨_, hexec, rfl, rfl, rfl, ?low, ?high, ?others, ha, hx, hy, hp, hrun, hdiag, hfault⟩
  case low => simp [Memory.read_write_pair]
  case high => exact Memory.read_write_same _ _ _
  case others =>
    intro addr hlow hhigh
    exact hmem s.sp.toNat (State.fetched_stackAddr 3 s) addr (by omega)

/-- Settles O7: the second byte would lie at 65536, and the bounds come before the bytes. -/
theorem jsrAbsAtTopOfMemoryFaults : Obligations.JsrAbsAtTopOfMemoryFaults := by
  intro target s hsp
  have htop : s.sp.toNat = 65535 := by simp [hsp]
  exact exec_jsrAbs_outside target htop

end Sys2Proof.Machine
end

section
/-! The conditions (60_exceptions.md): the record of an unrecognized opcode (R103, R104), when a step raises the fatal
condition and what it leaves (R101, R102), that no state a host can reach raises it, and the call that ends in it. -/

namespace Sys2Proof.Machine

/-! ## The record of an unrecognized opcode (R103, R104) -/

theorem exec_keeps_diag {i : Instr} {s t : State} (h : exec i s = .next t) (hi : ∀ op, i ≠ .unrecognized op) :
    t.diag = s.diag := by
  obtain ⟨c, v, rfl⟩ | ⟨target, -, -, rfl⟩ | ⟨op, hunrec, -⟩ := exec_next_cases h
  · simp
  · simp
  · exact absurd hunrec (hi op)

/-- Every handler has an instruction of its own. -/
theorem assemble_ne_unrecognized (handler : Handler) (b1 b2 op : Byte) :
    assemble handler b1 b2 ≠ .unrecognized op := by
  cases handler <;> exact nofun

/-- Settles O15: a miss is fetched as an unrecognized opcode, a hit never is. -/
theorem oneRecordPerUnrecognizedOpcode : Obligations.OneRecordPerUnrecognizedOpcode := by
  intro k s t h
  obtain ⟨-, hexec⟩ := stepWith_next h
  cases hlookup : lookup k (s.mem.read s.pc.toNat) with
  | none =>
    rw [fetchInstr_of_miss hlookup, exec_unrecognized] at hexec
    cases hexec
    rfl
  | some e =>
    rw [fetchInstr_of_lookup hlookup] at hexec
    exact exec_keeps_diag hexec (assemble_ne_unrecognized e.handler _ _)

/-! ## The fatal condition (R101, R102) -/

/-- A hit with the handler of JSR_ABS is fetched as a JSR_ABS to the word of the two bytes after it (R54, R56). -/
theorem fetchInstr_of_jsrAbs_handler {k : OpcodeMap} {s : State} {e : TableEntry}
    (hlookup : lookup k (s.mem.read s.pc.toNat) = some e) (hhandler : e.handler = .jsrAbs) :
    fetchInstr k s = .jsrAbs (wordOf (s.mem.read (s.pc + 1).toNat) (s.mem.read (s.pc + 2).toNat)) := by
  rw [fetchInstr_of_lookup hlookup, hhandler, assemble]

/-- When a step raises the fatal condition, and the state it leaves: three bytes fetched, nothing pushed. -/
theorem stepWith_eq_fault_iff {k : OpcodeMap} {s : State} {f : Fault} :
    stepWith k s = .fault f ↔
      s.run = .running ∧ s.sp = 0xFFFF ∧
        (∃ e, lookup k (s.mem.read s.pc.toNat) = some e ∧ e.handler = .jsrAbs) ∧
        f = .outOfRange 65536 { s.fetched 3 with run := .faulted, faultAddr := some 65536 } := by
  constructor
  · intro h
    obtain ⟨hrun, hexec⟩ := stepWith_fault h
    obtain ⟨⟨target, hfetch⟩, htop, hf⟩ := exec_fault hexec
    exact ⟨hrun, BitVec.eq_of_toNat_eq htop, lookup_of_fetchInstr_jsrAbs hfetch, hf⟩
  · rintro ⟨hrun, hsp, ⟨e, hlookup, hhandler⟩, rfl⟩
    have htop : s.sp.toNat = 65535 := by simp [hsp]
    rw [stepWith_running k hrun, fetchInstr_of_jsrAbs_handler hlookup hhandler, exec_jsrAbs_outside _ htop]
    rfl

/-- The address a fault reports; its state holds that address, is Faulted and has SP at the last address of memory. -/
theorem stepWith_fault_left {k : OpcodeMap} {s left : State} {addr : Nat}
    (h : stepWith k s = .fault (.outOfRange addr left)) :
    addr = 65536 ∧ left.run = .faulted ∧ left.faultAddr = some addr ∧ left.sp = 0xFFFF := by
  obtain ⟨-, hsp, -, hf⟩ := stepWith_eq_fault_iff.mp h
  cases hf
  exact ⟨rfl, rfl, rfl, hsp⟩

/-- Settles O50: both directions of the characterisation, and the address a fault reports. -/
theorem faultExactlyJsrAbsAtTop : Obligations.FaultExactlyJsrAbsAtTop := by
  intro k s
  refine ⟨⟨?_, ?_⟩, fun addr left h => (stepWith_fault_left h).1⟩
  · rintro ⟨f, h⟩
    obtain ⟨hrun, hsp, hjsr, -⟩ := stepWith_eq_fault_iff.mp h
    exact ⟨hrun, hsp, hjsr⟩
  · rintro ⟨hrun, hsp, hjsr⟩
    exact ⟨_, stepWith_eq_fault_iff.mpr ⟨hrun, hsp, hjsr, rfl⟩⟩

/-- Settles O51: a step that completes writes neither the address nor the run state, a fault writes both. -/
theorem faultAddressHeldInFaulted : Obligations.FaultAddressHeldInFaulted := by
  intro k s hagrees
  refine ⟨fun t h => ?_, fun addr left h => ?_⟩
  · obtain ⟨-, -, -, -, -, -, -, -, hrun⟩ := noStepWritesInertState k s t h
    simpa only [FaultAddrAgrees, stepWith_keeps_faultAddr h, hrun] using hagrees
  · obtain ⟨-, hfaulted, hreported, -⟩ := stepWith_fault_left h
    exact ⟨iff_of_true (Option.isSome_of_eq_some hreported) hfaulted, hreported⟩

/-! ## The states a host can reach (R102) -/

/-- Below the last address of memory every instruction completes. -/
theorem exec_completes (i : Instr) {s : State} (h : s.sp.toNat < 65535) : ∃ t, exec i s = .next t := by
  cases i with
  | ldaIm d8 => exact ⟨_, exec_ldaIm d8 s⟩
  | ldaZp d8 => exact ⟨_, exec_ldaZp d8 s⟩
  | ldaZpx d8 => exact ⟨_, exec_ldaZpx d8 s⟩
  | jsrAbs target => exact ⟨_, exec_jsrAbs_inside target h⟩
  | unrecognized op => exact ⟨_, exec_unrecognized op s⟩

/-- The last address of memory is odd, so an even SP lies below it. -/
theorem SpEven.inside {s : State} (h : SpEven s) : s.sp.toNat < 65535 := by
  have hword : s.sp.toNat < 65536 := s.sp.isLt
  unfold SpEven at h
  omega

theorem ReachInv.stepWith_next {k : OpcodeMap} {s : State} (h : ReachInv s) :
    ∃ t, stepWith k s = .next t ∧ ReachInv t := by
  have ⟨hrun, _, _, _, heven⟩ := h
  obtain ⟨t, hexec⟩ := exec_completes (fetchInstr k s) heven.inside
  have hstep : stepWith k s = .next t := (stepWith_running k hrun).trans hexec
  exact ⟨t, hstep, stepKeepsReachInv k s t h hstep⟩

theorem ReachInv.runLoop_next {k : OpcodeMap} {s : State} (h : ReachInv s) (fuel : Nat) :
    ∃ u, runLoop k fuel s = .next u ∧ ReachInv u := by
  induction fuel generalizing s with
  | zero => exact ⟨s, rfl, h⟩
  | succ fuel ih =>
    by_cases hcyc : 0 < s.cyc
    · obtain ⟨s', hstep, hs'⟩ := h.stepWith_next (k := k)
      obtain ⟨u, hloop, hu⟩ := ih hs'
      exact ⟨u, (runLoop_turn hcyc h.1).mpr ⟨s', hstep, hloop⟩, hu⟩
    · exact ⟨s, runLoop_spent k _ (not_lt.mp hcyc), h⟩

/-- The invariant does not mention the counter, so a call starts its loop with it and hands it back. -/
theorem ReachInv.executeWith_returned {k : OpcodeMap} {s : State} (h : ReachInv s) (budget : Nat) :
    ∃ t consumed, executeWith k budget s = .returned t consumed ∧ ReachInv t := by
  have hstart : ReachInv { s with cyc := budget } := h
  obtain ⟨u, hloop, hu⟩ := hstart.runLoop_next (k := k) budget
  exact ⟨{ u with cyc := s.cyc }, _, executeWith_eq_returned_iff.mpr ⟨h.1, u, hloop, rfl, rfl⟩, hu⟩

/-- A byte written between calls changes memory only, which stays canonical (R43, log entry 14). -/
theorem ReachInv.of_hostWrite {s s' : State} {addr : Nat} {v : Byte} (h : ReachInv s)
    (hwrite : hostWrite addr v s = .ok s') : ReachInv s' := by
  obtain ⟨hrun, hfault, hwf, hinert, heven⟩ := h
  obtain ⟨hinside, rfl⟩ := memWrite_ok hwrite
  exact ⟨hrun, hfault, Memory.wf_write s.mem addr v hwf hinside, hinert, heven⟩

/-- A call keeps the invariant, and from a state with it none is fatal. -/
theorem HostReachable.reachInv {k : OpcodeMap} {s : State} (h : HostReachable k s) : ReachInv s := by
  induction h with
  | reset s => exact reachInv_hostReset s
  | write s s' addr v _ hwrite ih => exact ih.of_hostWrite hwrite
  | call s s' budget consumed _ hcall ih =>
    obtain ⟨t, c, hreturned, ht⟩ := ih.executeWith_returned (k := k) budget
    rw [hreturned] at hcall
    cases hcall
    exact ht
  | fatalCall s s' budget addr charged _ hcall ih =>
    obtain ⟨t, c, hreturned, -⟩ := ih.executeWith_returned (k := k) budget
    rw [hreturned] at hcall
    cases hcall

/-- Settles O52: the invariant holds in every reached state, and lets every step and every call complete. -/
theorem reachableMachineNeverFaults : Obligations.ReachableMachineNeverFaults := by
  intro k s h
  have hinv := h.reachInv
  refine ⟨hinv, ?step, fun budget => ?call⟩
  case step =>
    obtain ⟨t, hstep, -⟩ := hinv.stepWith_next (k := k)
    exact ⟨t, hstep⟩
  case call =>
    obtain ⟨t, consumed, hreturned, -⟩ := hinv.executeWith_returned (k := k) budget
    exact ⟨t, consumed, hreturned⟩

/-! ## The call that ends in the fatal condition (R101, R106) -/

/-- A loop that ends in a fault ends in the fault of one of its steps. -/
theorem runLoop_fault {k : OpcodeMap} {fuel : Nat} {s : State} {f : Fault} (h : runLoop k fuel s = .fault f) :
    ∃ s', stepWith k s' = .fault f := by
  induction fuel generalizing s with
  | zero => cases h
  | succ fuel ih =>
    rw [runLoop] at h
    split at h
    · cases hstep : stepWith k s with
      | next s' =>
        rw [hstep] at h
        exact ih h
      | fault f' =>
        rw [hstep] at h
        cases h
        exact ⟨s, hstep⟩
      | refused r =>
        rw [hstep] at h
        cases h
    · cases h

/-- A fatal call hands on the fault of its loop, with the counter's cell as it was before the call (log entry 3). -/
theorem executeWith_fatal {k : OpcodeMap} {budget addr : Nat} {s left : State} {charged : Int}
    (h : executeWith k budget s = .fatal addr left charged) :
    ∃ u, runLoop k budget { s with cyc := budget } = .fault (.outOfRange addr u) ∧
      left = { u with cyc := s.cyc } := by
  unfold executeWith at h
  split at h
  · cases h
  · cases h
  · split at h
    · cases h
    · cases h
      exact ⟨_, ‹_›, rfl⟩
    · cases h

/-- Settles O59: the call ends in the fault of a JSR_ABS at the top of memory, and reset restores the invariant from any
state. -/
theorem fatalCallLeavesFaulted : Obligations.FatalCallLeavesFaulted := by
  intro k budget addr s left charged h
  obtain ⟨u, hloop, rfl⟩ := executeWith_fatal h
  obtain ⟨s', hstep⟩ := runLoop_fault hloop
  obtain ⟨haddr, hfaulted, hreported, hsp⟩ := stepWith_fault_left hstep
  refine ⟨haddr, hfaulted, hreported, hsp, fun b => ?refused, reachInv_hostReset _⟩
  case refused => exact (executeRefusedOutsideRunning k b _).2 hfaulted

end Sys2Proof.Machine
end

section
/-! Reset and hazards (70_reset_and_hazards.md): what the reset operation assigns (R120), and that no result of a step
depends on the cycle counter (R127). -/

namespace Sys2Proof.Machine

/-- Settles O23: the step from another counter is the same step, and charges the same. -/
theorem stepIgnoresCycleCounter : Obligations.StepIgnoresCycleCounter :=
  fun _ _ _ c h => stepWith_withCyc h c

/-- Settles O1, field by field: the flags are those of `Flags.clear`, and a memory that lists no cell reads 0x00. -/
theorem resetOperationAssigns : Obligations.ResetOperationAssigns := by
  intro s
  exact ⟨s.hostReset_pc, s.hostReset_sp,
    Flags.clear_c, Flags.clear_z, Flags.clear_i, Flags.clear_d, Flags.clear_b, Flags.clear_v, Flags.clear_n,
    Flags.clear_u, s.hostReset_a, s.hostReset_x, s.hostReset_y, Memory.read_nil,
    s.hostReset_run, s.hostReset_cyc, s.hostReset_diag⟩

end Sys2Proof.Machine
end

section
/-! The host's hook `withFetchWord` (log entry 11): the bytes of the table word stand at PC, so the next step runs them
(R50, R69). -/

namespace Sys2Proof.Machine

/-- A table word decodes to what its three bytes decode to. -/
theorem decode_of_decodeTableWord {nbits w : Nat} {i : Instr} (h : decodeTableWord nbits w = some i) :
    ∃ rest, decode (tableBytes nbits w) = .ok (i, rest) := by
  unfold decodeTableWord at h
  split at h
  · cases h
    exact ⟨_, ‹_›⟩
  · cases h

/-- PC, PC + 1 and PC + 2 are three addresses, the wrap modulo 65536 included, so no store hides another. -/
theorem bytesAtPc_withFetchWord (s : State) (nbits w : Nat) :
    bytesAtPc (s.withFetchWord nbits w) = tableBytes nbits w := by
  have h01 : s.pc.toNat ≠ (s.pc + 1).toNat := by bv_omega
  have h02 : s.pc.toNat ≠ (s.pc + 2).toNat := by bv_omega
  have h12 : (s.pc + 1).toNat ≠ (s.pc + 2).toNat := by bv_omega
  simp only [bytesAtPc, State.withFetchWord, Memory.read_write_same, Memory.read_write_other _ _ h01,
    Memory.read_write_other _ _ h02, Memory.read_write_other _ _ h12]
  rfl

/-- Settles O25: the machine is Running, and the bytes at PC are those of the table word. -/
theorem fetchWordIsExecuted : Obligations.FetchWordIsExecuted := by
  intro s nbits w i htable
  obtain ⟨rest, hdecode⟩ := decode_of_decodeTableWord htable
  rw [← bytesAtPc_withFetchWord s] at hdecode
  exact stepRunsDecodedInstruction _ i rest rfl hdecode

end Sys2Proof.Machine
end
